-- ==== Sys2Proof/Word.lean ====
section
/-! DEFINITION. The two fixed word types of the block: stream words and wide-register numbers. -/

namespace Sys2Proof

/-- A command word, payload word, output word or control-register value: 32 bits (R15). -/
abbrev Word := BitVec 32

/-- The number of a wide register, a 4-bit field of the command word (R12, R81). -/
abbrev RegNo := BitVec 4

end Sys2Proof
end

