-- ==== Sys2Proof/Config.lean ====
section
/-! DEFINITION. What one build of the block fixes: the two open parameters (R9, R11, R16), the fixed constants, and
the reject causes. No value of the spec is left free, so there is no opaque constant here (log 17). -/

namespace Sys2Proof

/-- The legal values of `LIMB_W`: 8, 16 and 32 only (R9). -/
inductive LimbWidth where
  | w8
  | w16
  | w32
deriving DecidableEq, Repr

/-- `LIMB_W` as a number of bits. -/
def LimbWidth.bits : LimbWidth → Nat
  | .w8 => 8
  | .w16 => 16
  | .w32 => 32

/-- The open parameters of a block (R16). -/
structure Params where
  /-- `LIMB_W`, written `L` in formulas (R9). -/
  limbW : LimbWidth
  /-- `NLIMB_MAX`, the limbs one wide register can hold (R11). -/
  nlimbMax : Nat
deriving DecidableEq, Repr

/-- `L`, the bit-width of one limb (R9). -/
abbrev Params.L (p : Params) : Nat := p.limbW.bits

/-- `WIDTH_MAX = NLIMB_MAX * LIMB_W` (R11). -/
def Params.widthMax (p : Params) : Nat := p.nlimbMax * p.L

/-- The parameter values R11 allows: `1 <= NLIMB_MAX` and `NLIMB_MAX * LIMB_W <= 65535`. -/
abbrev Params.Legal (p : Params) : Prop := 1 ≤ p.nlimbMax ∧ p.nlimbMax * p.L ≤ 65535

/-- The parameters `State.reset` takes: `LIMB_W = 8`, `NLIMB_MAX = 4`, those of the stream vectors of
`95_test_vectors.md` section 11. DESIGN CHOICE (log 2), unsafe: the spec leaves both open. -/
def Params.ofReset : Params := ⟨.w8, 4⟩

/-- Numerator of the document's `log2(10)` literal (R14). -/
def log2TenNum : Nat := 332192809488736234787

/-- Denominator of the document's `log2(10)` literal, `10^20` (R14). -/
def log2TenDen : Nat := 100000000000000000000

/-- `DIGIT_W`, the width of a digit (R13). -/
def digitW : Nat := 6

/-- The reject causes of R261, in the order of their codes. -/
inductive Cause where
  /-- 1: `op` is 0x0, 0xE or 0xF (R262). -/
  | illegalOpcode
  /-- 2: a must-be-zero field of the command word holds a 1 (R263). -/
  | reservedNonzero
  /-- 3: `SGET` of a number above 2 (R264). -/
  | badCsr
  /-- 4: `WRDX` with a radix other than 8, 10, 16, 64 (R265). -/
  | unsupportedRadix
  /-- 5: a source register is empty (R266). -/
  | unwrittenReg
  /-- 6: the value to be created would have width 0 (R267). -/
  | zeroWidth
  /-- 7: the value to be created would be wider than `WIDTH_MAX` (R268). -/
  | widthOverflow
  /-- 8: a payload word has a 1 in a must-be-zero bit (R269). -/
  | badPayload
deriving DecidableEq, Repr

end Sys2Proof
end

