-- ==== Sys2Proof/Machine/Limbs.lean ====
section
/-! DEFINITION. Limb arithmetic (R18), limb counts (R20) and the value of a limb list (R20).

A limb is a natural number below `2^L`: `L` is a parameter of the block, so a `BitVec` limb would carry the
parameter in its type. Every operation below narrows explicitly, as R18 writes it (log 10). -/

namespace Sys2Proof.Machine

/-- `nl(w) = ceil(w / L)`, the limb count of a width (R20, R31). -/
def nl (L w : Nat) : Nat := (w + L - 1) / L

/-- `lo(p) = p mod 2^L`, the low limb of a widened value (R18). -/
def lo (L p : Nat) : Nat := p % 2 ^ L

/-- `hi(p) = floor(p / 2^L)`, the high limb of a widened value (R18). -/
def hi (L p : Nat) : Nat := p / 2 ^ L

/-- Narrowing to the widened intermediate type, which has exactly `2L` bits (R10). -/
def wide (L x : Nat) : Nat := x % 2 ^ (2 * L)

/-- `a +L b`, wrapping limb addition (R18). -/
def wrapAdd (L a b : Nat) : Nat := (a + b) % 2 ^ L

/-- `a -L b`, wrapping limb subtraction (R18): `(a - b) mod 2^L`. -/
def wrapSub (L a b : Nat) : Nat := (a + (2 ^ L - b % 2 ^ L)) % 2 ^ L

/-- `val(V)`, the integer a limb list stands for, least-significant limb first, padding bits counted (R20). -/
def val (L : Nat) : List Nat → Nat
  | [] => 0
  | x :: xs => x + 2 ^ L * val L xs

end Sys2Proof.Machine
end

