-- ==== Sys2Proof/Syntax.lean ====
section
/-! DEFINITION. The thirteen commands (R83), each with the operands its format gives it (R82, R91). -/

namespace Sys2Proof

/-- One command: the operand fields of its command word and, where its format has a payload, the payload words.

`payload` holds the payload words that HAVE ARRIVED on `CMD`, at most as many as the command takes: the spec makes
the checks of causes 3 to 7 before it asks for the payload (R87, R89, R275), so a command whose payload is not
complete yet is already a term. A complete one satisfies `Instr.WellFormed`. -/
inductive Instr where
  /-- `WSET Wd, width, {l0, ..., lk}`: direct limb-list construction (R124). -/
  | wset (rd : RegNo) (width : BitVec 16) (payload : List Word)
  /-- `WPRO Wd, s`: promotion of a scalar (R206). -/
  | wpro (rd : RegNo) (payload : List Word)
  /-- `WRDX Wd, radix, [d0, ..., dk]`: radix construction from `n` digits (R231). -/
  | wrdx (rd : RegNo) (radix : BitVec 8) (n : BitVec 16) (payload : List Word)
  /-- `WADD Wd, Wa, Wb` (R157). -/
  | wadd (rd ra rb : RegNo)
  /-- `WADDT Wd, Wa, Wb` (R158). -/
  | waddt (rd ra rb : RegNo)
  /-- `WSUB Wd, Wa, Wb` (R159). -/
  | wsub (rd ra rb : RegNo)
  /-- `WSUBT Wd, Wa, Wb` (R160). -/
  | wsubt (rd ra rb : RegNo)
  /-- `WMUL Wd, Wa, Wb` (R183). -/
  | wmul (rd ra rb : RegNo)
  /-- `WEQ Wa, Wb` (R202). -/
  | weq (ra rb : RegNo)
  /-- `WEQS Wa, s` (R204). -/
  | weqs (ra : RegNo) (payload : List Word)
  /-- `WHB Wa` (R126). -/
  | whb (ra : RegNo)
  /-- `WGET Wa` (R125). -/
  | wget (ra : RegNo)
  /-- `SGET csr` (R250). -/
  | sget (csr : BitVec 16)
deriving DecidableEq, Repr

/-- The thirteen legal opcodes (R83). -/
inductive Opcode where
  | wset | wpro | wrdx | wadd | waddt | wsub | wsubt | wmul | weq | weqs | whb | wget | sget
deriving DecidableEq, Repr

/-- The opcode of a command. -/
def Instr.opcode : Instr → Opcode
  | .wset .. => .wset
  | .wpro .. => .wpro
  | .wrdx .. => .wrdx
  | .wadd .. => .wadd
  | .waddt .. => .waddt
  | .wsub .. => .wsub
  | .wsubt .. => .wsubt
  | .wmul .. => .wmul
  | .weq .. => .weq
  | .weqs .. => .weqs
  | .whb .. => .whb
  | .wget .. => .wget
  | .sget .. => .sget

/-- The named constants of the wide type, operands of the pseudo-instruction `WCONST` (R92, R207). -/
inductive NamedConst where
  | zero | one | two | three | ten
deriving DecidableEq, Repr

end Sys2Proof
end

