-- ==== Sys2Proof/Machine/Operands.lean ====
section
/-! DEFINITION. The operand forms: payload lengths (R87), payload word formats (R85), the radix field (R86, R221) and
the width estimate of a digit sequence (R222, R223). -/

namespace Sys2Proof.Machine

/-- A limb word's must-be-zero bits `31:L` are zero (R85). -/
def limbWordOk (L : Nat) (w : Word) : Bool := w >>> L == 0#32

/-- `Pay(k)[L-1:0]`, the limb a limb word carries (R85). -/
def limbOfWord (L : Nat) (w : Word) : Nat := w.toNat % 2 ^ L

/-- A digit word's must-be-zero bits `31:6` are zero (R85). -/
def digitWordOk (w : Word) : Bool := w >>> digitW == 0#32

/-- `Pay(t)[5:0]`, the digit a digit word carries (R85). -/
def digitOfWord (w : Word) : Nat := w.toNat % 2 ^ digitW

/-- `est(radix, n)`, the width of a radix construction from its digit count alone, or `none` for a radix that is
not supported (R13, R221, R222, R223). The decimal estimate is exact integer arithmetic (R14). -/
def est (radix n : Nat) : Option Nat :=
  if radix = 8 then some (3 * n)
  else if radix = 10 then some (1 + n * log2TenNum / log2TenDen)
  else if radix = 16 then some (4 * n)
  else if radix = 64 then some (6 * n)
  else none

/-- `plen`, the number of payload words of a command (R87). -/
def payloadLength (L : Nat) : Instr → Nat
  | .wset _ width _ => nl L width.toNat
  | .wpro .. => 1
  | .wrdx _ _ n _ => n.toNat
  | .wadd .. => 0
  | .waddt .. => 0
  | .wsub .. => 0
  | .wsubt .. => 0
  | .wmul .. => 0
  | .weq .. => 0
  | .weqs .. => 1
  | .whb .. => 0
  | .wget .. => 0
  | .sget .. => 0

/-- The payload words a command carries. -/
def payloadOf : Instr → List Word
  | .wset _ _ ws => ws
  | .wpro _ ws => ws
  | .wrdx _ _ _ ws => ws
  | .wadd .. => []
  | .waddt .. => []
  | .wsub .. => []
  | .wsubt .. => []
  | .wmul .. => []
  | .weq .. => []
  | .weqs _ ws => ws
  | .whb .. => []
  | .wget .. => []
  | .sget .. => []

/-- The value of a named constant of the wide type (R207). -/
def namedConstValue : NamedConst → Nat
  | .zero => 0
  | .one => 1
  | .two => 2
  | .three => 3
  | .ten => 10

/-- The pseudo-instruction `WCONST Wd, k`: `WPRO Wd, s` with `s` = 0, 1, 2, 3 or 10 (R92, R207). -/
def wconst (rd : RegNo) (k : NamedConst) : Instr := .wpro rd [BitVec.ofNat 32 (namedConstValue k)]

end Sys2Proof.Machine
end

