-- ==== Sys2Proof/WellFormed.lean ====
section
/-! DEFINITION. When a command is complete: it carries exactly the payload words its command word asks for.

Every bit pattern of the operand fields is a command (the fields are the encoding's own bit vectors), and illegal
values of `csr`, `radix`, `width`, `n` and the payload words are rejects that the command itself takes (R89, R260);
so the payload length is the one thing a term of `Instr` can get wrong. -/

namespace Sys2Proof

/-- A complete command of a block with limb width `L`: as many payload words as R87 says. -/
def Instr.WellFormed (L : Nat) (i : Instr) : Bool :=
  (Machine.payloadOf i).length == Machine.payloadLength L i

end Sys2Proof
end

