-- ==== Sys2Proof/Decode.lean ====
section
/-! DEFINITION. The decoder (R81 to R89), total on every stream of words, and after it the encoder (R82, R91). -/

namespace Sys2Proof

/-- What the front of `CMD` holds. -/
inductive Decoded where
  /-- No word has arrived: the block waits for a command word (R50). -/
  | idle
  /-- The word is no command: rejected by name, cause 1 or 2 (R89). -/
  | reject (c : Cause)
  /-- A command, with the payload words that have arrived. -/
  | command (i : Instr)
deriving DecidableEq, Repr

/-- `op = word[31:28]` (R81). -/
def opField (w : Word) : BitVec 4 := w.extractLsb' 28 4

/-- `rd = word[27:24]` (R81). -/
def rdField (w : Word) : RegNo := w.extractLsb' 24 4

/-- `ra = word[23:20]` (R81). -/
def raField (w : Word) : RegNo := w.extractLsb' 20 4

/-- `rb = word[19:16]` (R81). -/
def rbField (w : Word) : RegNo := w.extractLsb' 16 4

/-- `radix = word[23:16]`, read by `WRDX` in place of `ra` and `rb` (R81). -/
def radixField (w : Word) : BitVec 8 := w.extractLsb' 16 8

/-- `imm = word[15:0]` (R81). -/
def immField (w : Word) : BitVec 16 := w.extractLsb' 0 16

/-- The opcode map (R83): 0x1 to 0xD are commands; 0x0, 0xE and 0xF are not (R88). -/
def opcodeOfNibble (op : BitVec 4) : Option Opcode :=
  match op.toNat with
  | 1 => some .wset
  | 2 => some .wpro
  | 3 => some .wrdx
  | 4 => some .wadd
  | 5 => some .waddt
  | 6 => some .wsub
  | 7 => some .wsubt
  | 8 => some .wmul
  | 9 => some .weq
  | 10 => some .weqs
  | 11 => some .whb
  | 12 => some .wget
  | 13 => some .sget
  | _ => none

/-- The `match` column of R83. -/
def matchOf : Opcode → Word
  | .wset => 0x10000000#32
  | .wpro => 0x20000000#32
  | .wrdx => 0x30000000#32
  | .wadd => 0x40000000#32
  | .waddt => 0x50000000#32
  | .wsub => 0x60000000#32
  | .wsubt => 0x70000000#32
  | .wmul => 0x80000000#32
  | .weq => 0x90000000#32
  | .weqs => 0xA0000000#32
  | .whb => 0xB0000000#32
  | .wget => 0xC0000000#32
  | .sget => 0xD0000000#32

/-- The `mask` column of R83: the opcode and the must-be-zero fields (R84). -/
def maskOf : Opcode → Word
  | .wset => 0xF0FF0000#32
  | .wpro => 0xF0FFFFFF#32
  | .wrdx => 0xF0000000#32
  | .wadd => 0xF000FFFF#32
  | .waddt => 0xF000FFFF#32
  | .wsub => 0xF000FFFF#32
  | .wsubt => 0xF000FFFF#32
  | .wmul => 0xF000FFFF#32
  | .weq => 0xFF00FFFF#32
  | .weqs => 0xFF0FFFFF#32
  | .whb => 0xFF0FFFFF#32
  | .wget => 0xFF0FFFFF#32
  | .sget => 0xFFFF0000#32

/-- The operand fields of an opcode's format (R82) and, of the words that follow, as many as its payload takes
(R87). -/
def operandsOf (L : Nat) (op : Opcode) (w : Word) (rest : List Word) : Instr :=
  match op with
  | .wset => .wset (rdField w) (immField w) (rest.take (Machine.nl L (immField w).toNat))
  | .wpro => .wpro (rdField w) (rest.take 1)
  | .wrdx => .wrdx (rdField w) (radixField w) (immField w) (rest.take (immField w).toNat)
  | .wadd => .wadd (rdField w) (raField w) (rbField w)
  | .waddt => .waddt (rdField w) (raField w) (rbField w)
  | .wsub => .wsub (rdField w) (raField w) (rbField w)
  | .wsubt => .wsubt (rdField w) (raField w) (rbField w)
  | .wmul => .wmul (rdField w) (raField w) (rbField w)
  | .weq => .weq (raField w) (rbField w)
  | .weqs => .weqs (raField w) (rest.take 1)
  | .whb => .whb (raField w)
  | .wget => .wget (raField w)
  | .sget => .sget (immField w)

/-- The decode procedure of R89: the opcode, then the must-be-zero fields, then the operands. -/
def decode (L : Nat) : List Word → Decoded
  | [] => .idle
  | w :: rest =>
    match opcodeOfNibble (opField w) with
    | none => .reject .illegalOpcode
    | some op =>
      if w &&& maskOf op = matchOf op then .command (operandsOf L op w rest)
      else .reject .reservedNonzero

/-- A command word from the five fields of R81, each shifted to its place. -/
def packWord (op : BitVec 4) (rd ra rb : RegNo) (imm : BitVec 16) : Word :=
  op.setWidth 32 <<< 28 ||| rd.setWidth 32 <<< 24 ||| ra.setWidth 32 <<< 20 ||| rb.setWidth 32 <<< 16 |||
    imm.setWidth 32

/-- A command word of format X: `radix` in bits 23:16 in place of `ra` and `rb` (R81, R82). -/
def packRadixWord (op : BitVec 4) (rd : RegNo) (radix : BitVec 8) (n : BitVec 16) : Word :=
  op.setWidth 32 <<< 28 ||| rd.setWidth 32 <<< 24 ||| radix.setWidth 32 <<< 16 ||| n.setWidth 32

/-- The command word of a command, from its format's row in R82 (must-be-zero fields as zeros). -/
def headWord : Instr → Word
  | .wset rd width _ => packWord 0x1#4 rd 0#4 0#4 width
  | .wpro rd _ => packWord 0x2#4 rd 0#4 0#4 0#16
  | .wrdx rd radix n _ => packRadixWord 0x3#4 rd radix n
  | .wadd rd ra rb => packWord 0x4#4 rd ra rb 0#16
  | .waddt rd ra rb => packWord 0x5#4 rd ra rb 0#16
  | .wsub rd ra rb => packWord 0x6#4 rd ra rb 0#16
  | .wsubt rd ra rb => packWord 0x7#4 rd ra rb 0#16
  | .wmul rd ra rb => packWord 0x8#4 rd ra rb 0#16
  | .weq ra rb => packWord 0x9#4 0#4 ra rb 0#16
  | .weqs ra _ => packWord 0xA#4 0#4 ra 0#4 0#16
  | .whb ra => packWord 0xB#4 0#4 ra 0#4 0#16
  | .wget ra => packWord 0xC#4 0#4 ra 0#4 0#16
  | .sget csr => packWord 0xD#4 0#4 0#4 0#4 csr

/-- The words of a command on `CMD`: its command word, then its payload (R80, R91). -/
def encode (i : Instr) : List Word := headWord i :: Machine.payloadOf i

/-- The payload length a command word asks for (R87), read from the word itself. -/
def payloadLengthOfWord (L : Nat) (w : Word) : Nat :=
  match opcodeOfNibble (opField w) with
  | some op => Machine.payloadLength L (operandsOf L op w [])
  | none => 0

/-- `n` words cut from a number, least significant word first. -/
def wordsOfNat : Nat → Nat → List Word
  | 0, _ => []
  | n + 1, b => BitVec.ofNat 32 b :: wordsOfNat n (b / 2 ^ 32)

/-- An instruction given as the number `w` of `nbits` bits, laid out as words: the command word, then as many
payload words as it asks for. The bits at and above `nbits` are 0. -/
def fetchWords (L nbits w : Nat) : List Word :=
  let b := w % 2 ^ nbits
  let head := BitVec.ofNat 32 b
  head :: wordsOfNat (payloadLengthOfWord L head) (b / 2 ^ 32)

/-- The command the decoder reads from the opcode table's bits, at the limb width of `State.reset` (log 2). -/
def decodeTableWord (nbits w : Nat) : Option Instr :=
  match decode Params.ofReset.L (fetchWords Params.ofReset.L nbits w) with
  | .command i => some i
  | .reject _ => none
  | .idle => none

end Sys2Proof
end

