-- ==== Sys2Proof/Machine/State.lean ====
section
/-! DEFINITION. The architectural state (R51), the state after reset (R290), and the reasons a step can stop. -/

namespace Sys2Proof.Machine

/-- One Wide-Integer value: the pair `(bw, limb)` of R20 and R30. -/
structure WideInt where
  /-- `bit_width`, the declared width. -/
  bw : Nat
  /-- `limbs`, least-significant limb first, each below `2^L` (log 10). -/
  limbs : List Nat
deriving DecidableEq, Repr

/-- The architectural state of the block (R51), with its parameters (log 1) and the words of `CMD` that have
arrived and have not been taken yet (log 3). -/
structure State where
  /-- `LIMB_W` and `NLIMB_MAX`, which `CFG` shows (R41). No step writes it. -/
  params : Params
  /-- `W0` to `W15`, each empty (`none`) or one value (R35, R48). -/
  regs : Vector (Option WideInt) 16
  /-- `STATUS.EQ`, the only flag (R39, R43). -/
  eqFlag : Bool
  /-- `STATUS.REJ`, the run state: set while the block is rejected (R39, R46). -/
  rej : Bool
  /-- `STATUS.CAUSE`, the code of the reject, 0 while running (R39, R261). -/
  cause : BitVec 4
  /-- `HBR`, bits 15:0; bits 31:16 always read 0 (R40). -/
  hbr : BitVec 16
  /-- `OUT`, the words appended so far, oldest first (R45). -/
  out : List Word
  /-- `CMD`, the words that have arrived and are not taken yet, oldest first (R44). -/
  cmd : List Word
deriving DecidableEq, Repr

/-- Why a step stops with a fault: never. The block's only exception is the reject (R23), which is a NEXT state with
`REJ` and `CAUSE` written (R270), and waiting changes nothing (R275); so the type has no constructor, and nothing
raises one. Safe: no execution is cut short (log 14). -/
inductive Fault where
deriving DecidableEq, Repr

/-- Why a step declines. -/
inductive Refusal where
  /-- Raised by an arm of `exec` whose command has no meaning yet, by mnemonic. No arm raises it: all thirteen
  commands are modelled. Safe. -/
  | notModelled (mnemonic : String)
deriving DecidableEq, Repr

/-- What executing a command answers. -/
abbrev Result := Host.Outcome State Fault Refusal

/-- The reset state of a block with the given parameters (R48 to R50, R290): every register empty, `STATUS`, `HBR`
zero, `OUT` empty, running, no word on `CMD`. -/
def State.resetWith (p : Params) : State where
  params := p
  regs := Vector.replicate 16 none
  eqFlag := false
  rej := false
  cause := 0#4
  hbr := 0#16
  out := []
  cmd := []

/-- The machine right after reset, with the parameters of `Params.ofReset` (log 2). -/
def State.reset : State := State.resetWith Params.ofReset

end Sys2Proof.Machine
end

