-- ==== Sys2Proof/Machine/Flags.lean ====
section
/-! DEFINITION. Every flag and status computation: the carry and borrow of one limb position (R153, R154), the
comparisons that write `STATUS.EQ` (R200, R203), the cause codes (R261) and the words of the control registers
(R39 to R41). -/

namespace Sys2Proof.Machine

/-- The adder's one-limb step (R153): the limb and the carry out, found by comparing against the value before each
wrapping addition. -/
def addStep (L ai bi cin : Nat) : Nat × Nat :=
  let sum := wrapAdd L ai bi
  let total := wrapAdd L sum cin
  (total, if sum < ai ∨ total < sum then 1 else 0)

/-- The subtractor's one-limb step (R154): the limb and the borrow out. -/
def subStep (L ai bi bin : Nat) : Nat × Nat :=
  let diff := wrapSub L ai bi
  let total := wrapSub L diff bin
  (total, if ai < diff ∨ diff < total then 1 else 0)

/-- Limb-by-limb comparison of the first `n` positions, missing limbs read as 0 (R200). -/
def eqUpTo : Nat → List Nat → List Nat → Bool
  | 0, _, _ => true
  | n + 1, as, bs => as.headD 0 == bs.headD 0 && eqUpTo n as.tail bs.tail

/-- `eq(A, B)`: compared for the full length of the longer operand (R200). -/
def eqWide (a b : WideInt) : Bool := eqUpTo (max a.limbs.length b.limbs.length) a.limbs b.limbs

/-- `eqs(A, s)`: limb 0 is the scalar and every higher limb is 0 (R203). -/
def eqScalar (a : WideInt) (s : Nat) : Bool := a.limbs.headD 0 == s && a.limbs.tail.all (· == 0)

/-- The code of a cause, the value written to `STATUS.CAUSE` (R261). -/
def causeCode : Cause → BitVec 4
  | .illegalOpcode => 1#4
  | .reservedNonzero => 2#4
  | .badCsr => 3#4
  | .unsupportedRadix => 4#4
  | .unwrittenReg => 5#4
  | .zeroWidth => 6#4
  | .widthOverflow => 7#4
  | .badPayload => 8#4

/-- `STATUS` as the host and `SGET 0` see it (R39, R42): bits 31:8 zero, `CAUSE`, bits 3:2 zero, `REJ`, `EQ`. -/
def State.statusWord (s : State) : Word :=
  s.cause.setWidth 32 <<< 4 ||| (BitVec.ofBool s.rej).setWidth 32 <<< 1 ||| (BitVec.ofBool s.eqFlag).setWidth 32

/-- `HBR` as `SGET 1` sees it (R40): bits 31:16 zero. -/
def State.hbrWord (s : State) : Word := s.hbr.setWidth 32

/-- `CFG` as `SGET 2` sees it (R41): bits 31:24 zero, `NLIMB_MAX`, `LIMB_W`. -/
def State.cfgWord (s : State) : Word :=
  (BitVec.ofNat 16 s.params.nlimbMax).setWidth 32 <<< 8 ||| (BitVec.ofNat 8 s.params.L).setWidth 32

end Sys2Proof.Machine
end

