-- ==== Sys2Proof/Machine/Ops.lean ====
section
/-! DEFINITION. The named operations over registers and streams, the reject (the block's one exception), the checks
that can raise it, and what the host does. -/

namespace Sys2Proof.Machine

/-- `W[r]`: the value of a wide register, `none` when it is empty (R21, R35). -/
def State.reg (s : State) (r : RegNo) : Option WideInt := s.regs[r.toNat]'r.isLt

/-- `W[r] <- v`: the whole content of the register, width and limbs together, makes it non-empty (R21, R33). -/
def State.setReg (s : State) (r : RegNo) (v : WideInt) : State :=
  { s with regs := s.regs.set r.toNat (some v) r.isLt }

/-- `STATUS.EQ <- b` (R21). -/
def State.setEq (s : State) (b : Bool) : State := { s with eqFlag := b }

/-- `HBR <- v`, 16 significant bits (R21, R40). -/
def State.setHbr (s : State) (v : Nat) : State := { s with hbr := BitVec.ofNat 16 v }

/-- `OutWrite` of several words, in order: appended at the back of `OUT` (R22, R45). -/
def State.outWrite (s : State) (ws : List Word) : State := { s with out := s.out ++ ws }

/-- The command word and `plen` payload words are taken from the front of `CMD` (R80, R89). -/
def State.consume (s : State) (plen : Nat) : State := { s with cmd := s.cmd.drop (1 + plen) }

/-- Reject entry, the block's one exception (R270): `REJ` and `CAUSE` are written, the block enters the rejected
state, and nothing else changes. There is no return from it but reset (R273). DESIGN CHOICE (log 6): the rejected
command's words stay on `CMD`, where nothing ever looks at them (D30). -/
def State.rejected (s : State) (c : Cause) : State := { s with rej := true, cause := causeCode c }

/-- `raise Reject(c)`: the command stops before any of its writes (R23). -/
def reject (s : State) (c : Cause) : Result := .next (s.rejected c)

/-- A source register, read whole before anything is written; an empty one is rejected (R37, R266, R295). -/
def withSource (s : State) (r : RegNo) (k : WideInt → Result) : Result :=
  match s.reg r with
  | none => reject s .unwrittenReg
  | some v => k v

/-- Both source registers of a command with `ra` and `rb` (R266). -/
def withSources (s : State) (ra rb : RegNo) (k : WideInt → WideInt → Result) : Result :=
  withSource s ra fun a => withSource s rb fun b => k a b

/-- The width of the value to be created is not 0 (R267). -/
def checkNonzero (s : State) (w : Nat) (k : Result) : Result :=
  if w = 0 then reject s .zeroWidth else k

/-- The width of the value to be created is at most `WIDTH_MAX`, in unbounded integers (R268). -/
def checkFits (s : State) (w : Nat) (k : Result) : Result :=
  if s.params.widthMax < w then reject s .widthOverflow else k

/-- The last check of a command with payload. Fewer than `plen` words have arrived: the block waits and does nothing
meanwhile (R275, log 4). All have: each is checked for its must-be-zero bits (R269, log 9), then the command goes
on. A term with more words than `plen` is no decoder's; its surplus is not read (log 8). -/
def withPayload (s : State) (plen : Nat) (ok : Word → Bool) (payload : List Word) (k : List Word → Result) :
    Result :=
  if payload.length < plen then .next s
  else if (payload.take plen).all ok then k (payload.take plen)
  else reject s .badPayload

/-- The end of a command that writes `W[rd]` (R34, R37): the value is stored and the command's words are taken. -/
def finishReg (s : State) (rd : RegNo) (v : WideInt) (plen : Nat) : Result :=
  .next ((s.setReg rd v).consume plen)

/-- The end of a command that writes `STATUS.EQ` (R43). -/
def finishEq (s : State) (b : Bool) (plen : Nat) : Result := .next ((s.setEq b).consume plen)

/-- The end of a command that writes `HBR` (R40). -/
def finishHbr (s : State) (v : Nat) : Result := .next ((s.setHbr v).consume 0)

/-- The end of a command that appends to `OUT` (R45). -/
def finishOut (s : State) (ws : List Word) : Result := .next ((s.outWrite ws).consume 0)

/-- The control register with a number, `none` for an unassigned number (R61, R250). -/
def State.csr (s : State) (n : Nat) : Option Word :=
  match n with
  | 0 => some s.statusWord
  | 1 => some s.hbrWord
  | 2 => some s.cfgWord
  | _ => none

/-- The host sends words: they arrive behind those already on `CMD` (R44, R293). -/
def State.hostSend (s : State) (ws : List Word) : State := { s with cmd := s.cmd ++ ws }

/-- The host asserts and releases reset: the reset state of the same block, no word of an abandoned command kept
(R50, R290, R291, log 12). -/
def State.hostReset (s : State) : State := State.resetWith s.params

end Sys2Proof.Machine
end

