-- ==== Sys2Proof/Machine/AddSub.lean ====
section
/-! DEFINITION. The carry-propagation adder and the borrow-propagation subtractor (`41_addsub.md`). -/

namespace Sys2Proof.Machine

/-- The chain of R156 over the next `n` result positions, least significant first: every position takes the same step
on the next limb of each operand, 0 when an operand has none left (R152), and the carry or borrow of the position
below. What leaves the last position is dropped. Where there is no extra limb the last position takes the same step: the
spec's choice among the source's sentences (C5). -/
def chainFrom (stp : Nat → Nat → Nat → Nat × Nat) : Nat → List Nat → List Nat → Nat → List Nat
  | 0, _, _, _ => []
  | n + 1, as, bs, c =>
    let r := stp (as.headD 0) (bs.headD 0) c
    r.1 :: chainFrom stp n as.tail bs.tail r.2

/-- `chain(A, B, nr, step)` (R156): the carry or borrow into position 0 is 0. -/
def chain (stp : Nat → Nat → Nat → Nat × Nat) (nr : Nat) (a b : WideInt) : List Nat :=
  chainFrom stp nr a.limbs b.limbs 0

/-- The sum of two values at result width `wr` (R157, R158). -/
def addAt (L wr : Nat) (a b : WideInt) : WideInt := ⟨wr, chain (addStep L) (nl L wr) a b⟩

/-- The difference of two values at result width `wr` (R159, R160). -/
def subAt (L wr : Nat) (a b : WideInt) : WideInt := ⟨wr, chain (subStep L) (nl L wr) a b⟩

/-- `WADD Wd, Wa, Wb` (R157): width `max + 1`. -/
def execWadd (rd ra rb : RegNo) (s : State) : Result :=
  withSources s ra rb fun a b =>
  checkFits s (max a.bw b.bw + 1) <|
  finishReg s rd (addAt s.params.L (max a.bw b.bw + 1) a b) 0

/-- `WADDT Wd, Wa, Wb` (R158): width `max`, the final carry discarded. -/
def execWaddt (rd ra rb : RegNo) (s : State) : Result :=
  withSources s ra rb fun a b =>
  finishReg s rd (addAt s.params.L (max a.bw b.bw) a b) 0

/-- `WSUB Wd, Wa, Wb` (R159): A minus B, width `max + 1`. -/
def execWsub (rd ra rb : RegNo) (s : State) : Result :=
  withSources s ra rb fun a b =>
  checkFits s (max a.bw b.bw + 1) <|
  finishReg s rd (subAt s.params.L (max a.bw b.bw + 1) a b) 0

/-- `WSUBT Wd, Wa, Wb` (R160): A minus B, width `max`, the final borrow discarded. -/
def execWsubt (rd ra rb : RegNo) (s : State) : Result :=
  withSources s ra rb fun a b =>
  finishReg s rd (subAt s.params.L (max a.bw b.bw) a b) 0

end Sys2Proof.Machine
end

