-- ==== Sys2Proof/Machine/Equality.lean ====
section
/-! DEFINITION. Equality and promotion (`43_equality_promotion.md`). -/

namespace Sys2Proof.Machine

/-- `promote(s) = (L, {s})` (R205). -/
def promote (L s : Nat) : WideInt := ⟨L, [s]⟩

/-- `WPRO Wd, s` (R206). -/
def execWpro (rd : RegNo) (payload : List Word) (s : State) : Result :=
  withPayload s 1 (limbWordOk s.params.L) payload fun ws =>
  finishReg s rd (promote s.params.L (limbOfWord s.params.L (ws.headD 0#32))) 1

/-- `WEQ Wa, Wb` (R202). -/
def execWeq (ra rb : RegNo) (s : State) : Result :=
  withSources s ra rb fun a b => finishEq s (eqWide a b) 0

/-- `WEQS Wa, s` (R204): the source register is checked before the payload is awaited (R87, R271). -/
def execWeqs (ra : RegNo) (payload : List Word) (s : State) : Result :=
  withSource s ra fun a =>
  withPayload s 1 (limbWordOk s.params.L) payload fun ws =>
  finishEq s (eqScalar a (limbOfWord s.params.L (ws.headD 0#32))) 1

end Sys2Proof.Machine
end

