-- ==== Sys2Proof/Machine/Multiply.lean ====
section
/-! DEFINITION. The widening multiplier with its carry chain (`42_multiply.md`). -/

namespace Sys2Proof.Machine

/-- One inner step of R182 in the widened type of exactly `2L` bits (R10): the new `R[i+j]` and the new carry `k`. -/
def mulCell (L r k a b : Nat) : Nat × Nat :=
  let product := wide L (a * b)
  let partialSum := wide L (r + k)
  let sum := wide L (partialSum + product)
  (lo L sum, hi L sum)

/-- The inner loop of R182 for one limb `b` of B, over the limbs of A still to come, with the carry `k`. The third
argument is the result array from index `i + j` up: when it is used up the write index has reached `nr`, the loop is
left and `k` is dropped; when the limbs of A are used up its first cell is `R[j + A.n]`, where `k` is deposited. -/
def mulRow (L b : Nat) : List Nat → List Nat → Nat → List Nat
  | [], [], _ => []
  | [], _ :: rs, k => k :: rs
  | _ :: _, [], _ => []
  | a :: as, r :: rs, k =>
    let c := mulCell L r k a b
    c.1 :: mulRow L b as rs c.2

/-- The outer loop of R182 over the limbs of B still to come, on the result array from index `j` up. Later outer
iterations write at index `j + 1` and above only, so the cell at `j` is final after its own. -/
def mulRows (L : Nat) (as : List Nat) : List Nat → List Nat → List Nat
  | [], rs => rs
  | b :: bs, rs =>
    match mulRow L b as rs 0 with
    | [] => []
    | r :: rs' => r :: mulRows L as bs rs'

/-- `mularr(A, B, nr)`: the result array starts all zero and is no operand (R182, R296). -/
def mularr (L nr : Nat) (a b : WideInt) : List Nat :=
  mulRows L a.limbs b.limbs (List.replicate nr 0)

/-- The product at width `wA + wB` (R180, R183). -/
def mulOf (L : Nat) (a b : WideInt) : WideInt := ⟨a.bw + b.bw, mularr L (nl L (a.bw + b.bw)) a b⟩

/-- `WMUL Wd, Wa, Wb` (R183). -/
def execWmul (rd ra rb : RegNo) (s : State) : Result :=
  withSources s ra rb fun a b =>
  checkFits s (a.bw + b.bw) <|
  finishReg s rd (mulOf s.params.L a b) 0

end Sys2Proof.Machine
end

