-- ==== Sys2Proof/Machine/Radix.lean ====
section
/-! DEFINITION. The radix-to-limb converter (`44_radix.md`). -/

namespace Sys2Proof.Machine

/-- One limb of the multiply step in the widened type (R225): the new limb and the carry out. -/
def radixMulCell (L radix x c : Nat) : Nat × Nat :=
  let product := wide L (wide L (x * radix) + c)
  (lo L product, hi L product)

/-- The multiply step of R225 over the limbs still to come, least significant first; the last carry is dropped. -/
def mulStep (L radix : Nat) : List Nat → Nat → List Nat
  | [], _ => []
  | x :: xs, c =>
    let r := radixMulCell L radix x c
    r.1 :: mulStep L radix xs r.2

/-- One limb of the add step in the widened type (R226). -/
def radixAddCell (L x c : Nat) : Nat × Nat :=
  let sum := wide L (x + c)
  (lo L sum, hi L sum)

/-- The add step of R226: the digit enters as the carry into limb 0; the last carry is dropped. -/
def addDigit (L : Nat) : List Nat → Nat → List Nat
  | [], _ => []
  | x :: xs, c =>
    let r := radixAddCell L x c
    r.1 :: addDigit L xs r.2

/-- One digit of the construction: the multiply step, then the add step (R227). -/
def radixStep (L radix : Nat) (acc : List Nat) (d : Nat) : List Nat :=
  addDigit L (mulStep L radix acc 0) d

/-- The accumulator after all digits, most significant first, from `nr` zero limbs (R224, R227). The carry that leaves
the last limb is dropped and not recorded (R228, log 11). -/
def rdx (L radix nr : Nat) (digits : List Nat) : List Nat :=
  digits.foldl (radixStep L radix) (List.replicate nr 0)

/-- `WRDX Wd, radix, [d0, ..., d(n-1)]` (R231). -/
def execWrdx (rd : RegNo) (radix : BitVec 8) (n : BitVec 16) (payload : List Word) (s : State) : Result :=
  match est radix.toNat n.toNat with
  | none => reject s .unsupportedRadix
  | some w =>
    checkNonzero s w <|
    checkFits s w <|
    withPayload s n.toNat digitWordOk payload fun ws =>
    finishReg s rd ⟨w, rdx s.params.L radix.toNat (nl s.params.L w) (ws.map digitOfWord)⟩ n.toNat

end Sys2Proof.Machine
end

