-- ==== Sys2Proof/Machine/Representation.lean ====
section
/-! DEFINITION. `WSET`, `WGET`, `WHB` and the bit-length function (`40_representation.md`). -/

namespace Sys2Proof.Machine

/-- The scan of one limb from its most to its least significant bit: the 1-based index of the first set bit among
bits `n-1 .. 0`, or 0 (R120). -/
def topBit : Nat → Nat → Nat
  | 0, _ => 0
  | b + 1, x => if x.testBit b then b + 1 else topBit b x

/-- The scan over limbs, the MOST significant first, so that the limbs still to come are as many as the index of the
one looked at: `limb_index * L + bit_index` at the first nonzero limb (R120). -/
def topLimb (L : Nat) : List Nat → Nat
  | [] => 0
  | x :: below => if x ≠ 0 then below.length * L + topBit L x else topLimb L below

/-- `hb(V)`, the document's `highest_bit()` (R120): whole limbs, not stopped at the declared width. -/
def hb (L : Nat) (v : WideInt) : Nat := topLimb L v.limbs.reverse

/-- `WSET Wd, width, {l0, ..., lk}` (R124). -/
def execWset (rd : RegNo) (width : BitVec 16) (payload : List Word) (s : State) : Result :=
  checkNonzero s width.toNat <|
  checkFits s width.toNat <|
  withPayload s (nl s.params.L width.toNat) (limbWordOk s.params.L) payload fun ws =>
  finishReg s rd ⟨width.toNat, ws.map (limbOfWord s.params.L)⟩ (nl s.params.L width.toNat)

/-- The record `WGET` appends: the width, then the limbs, least significant first, each in 32 bits (R93, R125). -/
def wgetRecord (v : WideInt) : List Word :=
  BitVec.ofNat 32 v.bw :: v.limbs.map (BitVec.ofNat 32)

/-- `WGET Wa` (R125). -/
def execWget (ra : RegNo) (s : State) : Result :=
  withSource s ra fun v => finishOut s (wgetRecord v)

/-- `WHB Wa` (R126). -/
def execWhb (ra : RegNo) (s : State) : Result :=
  withSource s ra fun v => finishHbr s (hb s.params.L v)

end Sys2Proof.Machine
end

