-- ==== Sys2Proof/Machine/System.lean ====
section
/-! DEFINITION. `SGET`, the host's way to read the control registers (`45_system.md`). -/

namespace Sys2Proof.Machine

/-- `SGET csr` (R250). -/
def execSget (csr : BitVec 16) (s : State) : Result :=
  match s.csr csr.toNat with
  | none => reject s .badCsr
  | some w => finishOut s [w]

end Sys2Proof.Machine
end

