-- ==== Sys2Proof/Machine/Dispatch.lean ====
section
/-! DEFINITION. The meaning of each command, one arm per constructor (R89 step 4). -/

namespace Sys2Proof.Machine

def exec (i : Instr) (s : State) : Host.Outcome State Fault Refusal :=
  match i with
  | .wset rd width payload => Sys2Proof.Machine.execWset rd width payload s
  | .wpro rd payload => Sys2Proof.Machine.execWpro rd payload s
  | .wrdx rd radix n payload => Sys2Proof.Machine.execWrdx rd radix n payload s
  | .wadd rd ra rb => Sys2Proof.Machine.execWadd rd ra rb s
  | .waddt rd ra rb => Sys2Proof.Machine.execWaddt rd ra rb s
  | .wsub rd ra rb => Sys2Proof.Machine.execWsub rd ra rb s
  | .wsubt rd ra rb => Sys2Proof.Machine.execWsubt rd ra rb s
  | .wmul rd ra rb => Sys2Proof.Machine.execWmul rd ra rb s
  | .weq ra rb => Sys2Proof.Machine.execWeq ra rb s
  | .weqs ra payload => Sys2Proof.Machine.execWeqs ra payload s
  | .whb ra => Sys2Proof.Machine.execWhb ra s
  | .wget ra => Sys2Proof.Machine.execWget ra s
  | .sget csr => Sys2Proof.Machine.execSget csr s

end Sys2Proof.Machine
end

