-- ==== Sys2Proof/Machine/Step.lean ====
section
/-! DEFINITION. One step of the block, and how an instruction is placed where the next step fetches it. -/

namespace Sys2Proof.Machine

/-- One step. A rejected block executes nothing and consumes nothing (R270, R273, log 5); a running block with no word
on `CMD` waits (R50, log 4); a word that is no command is rejected (R89); a command is executed. -/
def step (s : State) : Host.Outcome State Fault Refusal :=
  if s.rej then .next s
  else match decode s.params.L s.cmd with
    | .idle => .next s
    | .reject c => reject s c
    | .command i => exec i s

/-- The instruction's words on `CMD` of a running block, so that the very next step runs it (log 3, log 16). -/
def State.withFetchWord (s : State) (nbits w : Nat) : State :=
  { s with cmd := fetchWords s.params.L nbits w, rej := false, cause := 0#4 }

end Sys2Proof.Machine
end

