-- ==== Sys2Proof/Safety.lean ====
section
/-! DEFINITION. The terms statements are made in: when a value and a state are what the spec allows, when a run has ended,
which reject conditions a command meets, and the tables of the spec written once more for the statements. -/

namespace Sys2Proof.Machine

/-- A Wide-Integer value of a block (R20, R30, R31): a width in `1 .. WIDTH_MAX`, as many limbs as the width takes,
each below `2^L`. -/
abbrev WideInt.Wf (p : Params) (v : WideInt) : Prop :=
  1 ≤ v.bw ∧ v.bw ≤ p.widthMax ∧ v.limbs.length = nl p.L v.bw ∧ ∀ x ∈ v.limbs, x < 2 ^ p.L

/-- A clean value: its padding bits are all 0 (R24). -/
abbrev WideInt.Clean (L : Nat) (v : WideInt) : Prop := val L v.limbs < 2 ^ v.bw

/-- The bounds R52 lets a model rely on, with R11 (parameters), R31 (limb counts) and R39 (cause codes). -/
abbrev State.Inv (s : State) : Prop :=
  s.params.Legal ∧
  (∀ r : RegNo, ∀ v ∈ s.reg r, v.Wf s.params) ∧
  s.hbr.toNat ≤ s.params.widthMax ∧
  (s.cause = 0#4 ↔ s.rej = false) ∧
  s.cause.toNat ≤ 8

/-- A run has ended well: every word is consumed and nothing was rejected (R300). -/
abbrev State.EndedWell (s : State) : Prop := s.cmd = [] ∧ s.rej = false

/-- A run has ended badly: a command was rejected (R300). -/
abbrev State.EndedBadly (s : State) : Prop := s.rej = true

/-- The block is stuck inside a command (R275): words are on `CMD`, nothing is rejected, and the step changes
nothing. Neither a good nor a bad end (U10). -/
def State.Stuck (s : State) : Prop := s.cmd ≠ [] ∧ s.rej = false ∧ step s = .next s

/-- The command is rejected with a cause, as R270 says it: `REJ` and `CAUSE` are written, and every register, `EQ`, `HBR`,
`OUT` and the parameters keep their values. It says nothing of `CMD`, whose position after a reject no rule fixes
(D30; what the model does is log 6). -/
def RejectedWith (s : State) (c : Cause) (r : Result) : Prop :=
  ∃ t : State, r = .next t ∧ t.rej = true ∧ t.cause = causeCode c ∧ t.params = s.params ∧ t.regs = s.regs ∧
    t.eqFlag = s.eqFlag ∧ t.hbr = s.hbr ∧ t.out = s.out

/-- The opcode map of R83, row by row: opcode, match, mask. -/
def opcodeMap : List (Opcode × Word × Word) :=
  [(.wset, 0x10000000#32, 0xF0FF0000#32),
   (.wpro, 0x20000000#32, 0xF0FFFFFF#32),
   (.wrdx, 0x30000000#32, 0xF0000000#32),
   (.wadd, 0x40000000#32, 0xF000FFFF#32),
   (.waddt, 0x50000000#32, 0xF000FFFF#32),
   (.wsub, 0x60000000#32, 0xF000FFFF#32),
   (.wsubt, 0x70000000#32, 0xF000FFFF#32),
   (.wmul, 0x80000000#32, 0xF000FFFF#32),
   (.weq, 0x90000000#32, 0xFF00FFFF#32),
   (.weqs, 0xA0000000#32, 0xFF0FFFFF#32),
   (.whb, 0xB0000000#32, 0xFF0FFFFF#32),
   (.wget, 0xC0000000#32, 0xFF0FFFFF#32),
   (.sget, 0xD0000000#32, 0xFFFF0000#32)]

/-- The destination register of a command, `none` for a command that writes no register (R37). -/
def destOf : Instr → Option RegNo
  | .wset rd _ _ => some rd
  | .wpro rd _ => some rd
  | .wrdx rd _ _ _ => some rd
  | .wadd rd _ _ => some rd
  | .waddt rd _ _ => some rd
  | .wsub rd _ _ => some rd
  | .wsubt rd _ _ => some rd
  | .wmul rd _ _ => some rd
  | .weq _ _ => none
  | .weqs _ _ => none
  | .whb _ => none
  | .wget _ => none
  | .sget _ => none

/-- The source registers of a command (R37). -/
def sourcesOf : Instr → List RegNo
  | .wset _ _ _ => []
  | .wpro _ _ => []
  | .wrdx _ _ _ _ => []
  | .wadd _ ra rb => [ra, rb]
  | .waddt _ ra rb => [ra, rb]
  | .wsub _ ra rb => [ra, rb]
  | .wsubt _ ra rb => [ra, rb]
  | .wmul _ ra rb => [ra, rb]
  | .weq ra rb => [ra, rb]
  | .weqs ra _ => [ra]
  | .whb ra => [ra]
  | .wget ra => [ra]
  | .sget _ => []

/-- The width of the value a command would create, for the commands that R268 names; `none` where an empty source or
an unsupported radix leaves it without one. -/
def createdWidth (s : State) : Instr → Option Nat
  | .wset _ width _ => some width.toNat
  | .wrdx _ radix n _ => est radix.toNat n.toNat
  | .wadd _ ra rb => (s.reg ra).bind fun a => (s.reg rb).map fun b => max a.bw b.bw + 1
  | .wsub _ ra rb => (s.reg ra).bind fun a => (s.reg rb).map fun b => max a.bw b.bw + 1
  | .wmul _ ra rb => (s.reg ra).bind fun a => (s.reg rb).map fun b => a.bw + b.bw
  | .wpro _ _ => none
  | .waddt _ _ _ => none
  | .wsubt _ _ _ => none
  | .weq _ _ => none
  | .weqs _ _ => none
  | .whb _ => none
  | .wget _ => none
  | .sget _ => none

/-- How many low bits of a payload word carry data: `L` in a limb word, 6 in a digit word (R85). -/
def dataBits (L : Nat) : Instr → Nat
  | .wrdx _ _ _ _ => digitW
  | .wset _ _ _ => L
  | .wpro _ _ => L
  | .weqs _ _ => L
  | .wadd _ _ _ => 0
  | .waddt _ _ _ => 0
  | .wsub _ _ _ => 0
  | .wsubt _ _ _ => 0
  | .wmul _ _ _ => 0
  | .weq _ _ => 0
  | .whb _ => 0
  | .wget _ => 0
  | .sget _ => 0

/-- The conditions of R261's table, for a decoded command (causes 1 and 2 are about words that are none). -/
def Meets (s : State) (i : Instr) : Cause → Prop
  | .illegalOpcode => False
  | .reservedNonzero => False
  | .badCsr => ∃ csr : BitVec 16, i = .sget csr ∧ 2 < csr.toNat
  | .unsupportedRadix => ∃ (rd : RegNo) (radix : BitVec 8) (n : BitVec 16) (ws : List Word),
      i = .wrdx rd radix n ws ∧ radix.toNat ∉ [8, 10, 16, 64]
  | .unwrittenReg => ∃ r ∈ sourcesOf i, s.reg r = none
  | .zeroWidth => (i.opcode = .wset ∨ i.opcode = .wrdx) ∧ createdWidth s i = some 0
  | .widthOverflow => ∃ w, createdWidth s i = some w ∧ s.params.widthMax < w
  | .badPayload => ∃ w ∈ payloadOf i, w >>> dataBits s.params.L i ≠ 0#32

/-- The lowest-numbered reject condition a command meets (R271). -/
def LowestMet (s : State) (i : Instr) (c : Cause) : Prop :=
  Meets s i c ∧ ∀ c', Meets s i c' → (causeCode c).toNat ≤ (causeCode c').toNat

/-- A command with the data bits of its payload words left out, the must-be-zero bits kept (R260). -/
def withoutMagnitudes (L : Nat) : Instr → Instr
  | .wset rd width ws => .wset rd width (ws.map fun w : Word => w >>> L)
  | .wpro rd ws => .wpro rd (ws.map fun w : Word => w >>> L)
  | .wrdx rd radix n ws => .wrdx rd radix n (ws.map fun w : Word => w >>> digitW)
  | .wadd rd ra rb => .wadd rd ra rb
  | .waddt rd ra rb => .waddt rd ra rb
  | .wsub rd ra rb => .wsub rd ra rb
  | .wsubt rd ra rb => .wsubt rd ra rb
  | .wmul rd ra rb => .wmul rd ra rb
  | .weq ra rb => .weq ra rb
  | .weqs ra ws => .weqs ra (ws.map fun w : Word => w >>> L)
  | .whb ra => .whb ra
  | .wget ra => .wget ra
  | .sget csr => .sget csr

/-- Two states of one block that differ, as far as registers go, in limb values only: the same registers are empty and
the others have the same widths (R260). -/
def SameShape (s t : State) : Prop :=
  s.params = t.params ∧ ∀ r : RegNo, (s.reg r).map WideInt.bw = (t.reg r).map WideInt.bw

/-- The number a digit sequence stands for, most significant digit first: the sum over `t` of
`d_t * radix^(n-1-t)` (R229). -/
def digitsValue (radix : Nat) (ds : List Nat) : Nat :=
  ∑ t ∈ Finset.range ds.length, ds.getD t 0 * radix ^ (ds.length - 1 - t)

end Sys2Proof.Machine
end

