-- ==== Sys2Proof/Certificates/Slice0/Obligations.lean ====
section
/-! DEFINITION. The statements for the provers, rule by rule of spec/. The block has no memory (R60), so a frame here is
about the registers, the flag, `HBR`, the streams and the parameters: `CommandFrame` states it for every command, and
the completion statements give the whole next state. -/

open Sys2Proof Sys2Proof.Machine

/-! ## Reset (10_state.md, 70_reset_and_hazards.md) -/

/-- R49: after reset `STATUS`, `HBR` are zero and `CFG` has its constant value, for every legal choice of the
parameters. -/
def Obligations.ResetClearsControlRegisters : Prop :=
  ∀ p : Params, p.Legal →
    let s := State.resetWith p
    s.statusWord = 0#32 ∧ s.eqFlag = false ∧ s.rej = false ∧ s.cause = 0#4 ∧ s.hbrWord = 0#32 ∧
      s.cfgWord.toNat = p.L + 256 * p.nlimbMax

/-- R48, R50, R290, R291: a reset by the host, in any state, leaves every register empty, `OUT` empty, the block running
and waiting, and the parameters as they were. That no unread word stays on `CMD` is the model's choice (log 12). -/
def Obligations.HostResetLeavesTheResetState : Prop :=
  ∀ s : State, (∀ r : RegNo, s.hostReset.reg r = none) ∧ s.hostReset.out = [] ∧ s.hostReset.cmd = [] ∧
    s.hostReset.rej = false ∧ s.hostReset.cause = 0#4 ∧ s.hostReset.eqFlag = false ∧ s.hostReset.hbr = 0#16 ∧
    s.hostReset.params = s.params ∧ step s.hostReset = .next s.hostReset

/-! ## Encoding (30_encoding.md) -/

/-- R95: the worked encodings, read and written, and the two words that are rejected. -/
def Obligations.WorkedEncodings : Prop :=
  encode (.wadd 5 3 4) = [0x45340000#32] ∧ decode 8 [0x45340000#32] = .command (.wadd 5 3 4) ∧
  encode (.wmul 3 1 2) = [0x83120000#32] ∧ decode 8 [0x83120000#32] = .command (.wmul 3 1 2) ∧
  encode (.wset 1 16 [123#32, 238#32]) = [0x11000010#32, 0x0000007B#32, 0x000000EE#32] ∧
  decode 8 [0x11000010#32, 0x0000007B#32, 0x000000EE#32] = .command (.wset 1 16 [123#32, 238#32]) ∧
  encode (.wrdx 0 10 3 [2#32, 5#32, 5#32]) = [0x300A0003#32, 2#32, 5#32, 5#32] ∧
  decode 8 [0x300A0003#32, 2#32, 5#32, 5#32] = .command (.wrdx 0 10 3 [2#32, 5#32, 5#32]) ∧
  encode (.weqs 0 [255#32]) = [0xA0000000#32, 0x000000FF#32] ∧
  decode 8 [0xA0000000#32, 0x000000FF#32] = .command (.weqs 0 [255#32]) ∧
  encode (.sget 1) = [0xD0000001#32] ∧ decode 8 [0xD0000001#32] = .command (.sget 1) ∧
  decode 8 [0x45340001#32] = .reject .reservedNonzero ∧ decode 8 [0x00000000#32] = .reject .illegalOpcode

/-- R81, R82, R87, R89: the decoder reads back every complete command the encoder writes, whatever follows it. -/
def Obligations.DecodeOfEncode : Prop :=
  ∀ (L : Nat) (i : Instr) (rest : List Word), i.WellFormed L = true → decode L (encode i ++ rest) = .command i

/-- R80, R81, R84: a stream that decodes to a complete command begins with that command's own encoding, so no bit of
the words taken is ignored. -/
def Obligations.EncodeOfDecode : Prop :=
  ∀ (L : Nat) (ws : List Word) (i : Instr), decode L ws = .command i → i.WellFormed L = true →
    encode i ++ ws.drop (1 + payloadLength L i) = ws

/-- R83: a word is a named command exactly when it meets the match and mask of that command's row. -/
def Obligations.OpcodeMapIsMatchAndMask : Prop :=
  ∀ row ∈ opcodeMap, ∀ (L : Nat) (w : Word) (rest : List Word),
    (∃ i : Instr, i.opcode = row.1 ∧ decode L (w :: rest) = .command i) ↔ w &&& row.2.2 = row.2.1

/-- R262, R263 with R88, R89: on a running block every word at the front of `CMD` is rejected as an illegal opcode,
rejected for a nonzero must-be-zero field, or executed as the command it decodes to. -/
def Obligations.EveryWordIsRejectedOrExecuted : Prop :=
  ∀ (s : State) (w : Word) (rest : List Word), s.rej = false → s.cmd = w :: rest →
    ((w.toNat / 2 ^ 28 = 0 ∨ w.toNat / 2 ^ 28 = 14 ∨ w.toNat / 2 ^ 28 = 15) →
      RejectedWith s .illegalOpcode (step s)) ∧
    (∀ row ∈ opcodeMap, w.toNat / 2 ^ 28 = row.2.1.toNat / 2 ^ 28 → w &&& row.2.2 ≠ row.2.1 →
      RejectedWith s .reservedNonzero (step s)) ∧
    (∀ row ∈ opcodeMap, w &&& row.2.2 = row.2.1 →
      ∃ i : Instr, i.opcode = row.1 ∧ decode s.params.L s.cmd = .command i ∧ step s = exec i s)

/-- R89: a step of a running block whose `CMD` decodes to a command is that command's execution, which itself takes the
command's words from `CMD` when it completes. -/
def Obligations.StepRunsTheDecodedCommand : Prop :=
  ∀ (s : State) (i : Instr), s.rej = false → decode s.params.L s.cmd = .command i → step s = exec i s

/-! ## Representation (40_representation.md) -/

/-- R124: `WSET` of a legal width with its limbs completes and stores exactly that width and those limbs; nothing else
changes but the words taken from `CMD`. -/
def Obligations.WsetStoresWidthAndLimbs : Prop :=
  ∀ (s : State) (rd : RegNo) (width : BitVec 16) (limbs : List Nat),
    1 ≤ width.toNat → width.toNat ≤ s.params.widthMax → limbs.length = nl s.params.L width.toNat →
    (∀ x ∈ limbs, x < 2 ^ s.params.L) →
    exec (.wset rd width (limbs.map (BitVec.ofNat 32))) s =
      .next { s with
        regs := s.regs.set rd.toNat (some ⟨width.toNat, limbs⟩) rd.isLt
        cmd := s.cmd.drop (1 + nl s.params.L width.toNat) }

/-- R127: `WSET` then `WGET` is the identity on the pair (width, limb list). -/
def Obligations.WsetThenWgetIsIdentity : Prop :=
  ∀ (s : State) (rd : RegNo) (width : BitVec 16) (limbs : List Nat),
    1 ≤ width.toNat → width.toNat ≤ s.params.widthMax → limbs.length = nl s.params.L width.toNat →
    (∀ x ∈ limbs, x < 2 ^ s.params.L) →
    ∃ t u : State, exec (.wset rd width (limbs.map (BitVec.ofNat 32))) s = .next t ∧
      exec (.wget rd) t = .next u ∧
      (u.out.drop s.out.length).map BitVec.toNat = width.toNat :: limbs ∧ u.out.take s.out.length = s.out

/-- R125, R93: `WGET` of a register that holds a value completes and appends the width and then every limb, least
significant first. -/
def Obligations.WgetAppendsWidthThenLimbs : Prop :=
  ∀ (s : State) (ra : RegNo) (v : WideInt), s.reg ra = some v →
    exec (.wget ra) s =
      .next { s with
        out := s.out ++ (BitVec.ofNat 32 v.bw :: v.limbs.map (BitVec.ofNat 32))
        cmd := s.cmd.drop 1 }

/-- R121: the properties (a) to (e) of `hb`. -/
def Obligations.HighestBitProperties : Prop :=
  (∀ (p : Params) (v : WideInt), v.Wf p →
    (hb p.L v = 0 ↔ ∀ x ∈ v.limbs, x = 0) ∧ (hb p.L v = 0 ↔ val p.L v.limbs = 0) ∧
    (val p.L v.limbs ≠ 0 → hb p.L v = Nat.log2 (val p.L v.limbs) + 1 ∧
      2 ^ (hb p.L v - 1) ≤ val p.L v.limbs ∧ val p.L v.limbs < 2 ^ hb p.L v) ∧
    hb p.L v ≤ v.limbs.length * p.L ∧
    (v.Clean p.L → hb p.L v ≤ v.bw) ∧
    (val p.L v.limbs = 2 ^ (v.bw - 1) → hb p.L v = v.bw)) ∧
  hb 8 ⟨7, [255]⟩ = 8

/-- R126 with R120, R121: `WHB` of a register that holds a value completes and leaves in `HBR` the bit length of the
value, padding bits counted, and changes nothing else. -/
def Obligations.WhbWritesTheBitLength : Prop :=
  ∀ (s : State) (ra : RegNo) (v : WideInt), s.params.Legal → s.reg ra = some v → v.Wf s.params →
    ∃ h : BitVec 16, exec (.whb ra) s = .next { s with hbr := h, cmd := s.cmd.drop 1 } ∧
      h.toNat = (if val s.params.L v.limbs = 0 then 0 else Nat.log2 (val s.params.L v.limbs) + 1)

/-! ## Adder and subtractor (41_addsub.md) -/

/-- R155: the one-limb steps are a full adder and a full subtractor, the two wrap tests of one step are never
both true, and the rule's corner cases. -/
def Obligations.OneLimbStepsAreFullAdders : Prop :=
  ∀ (lw : LimbWidth) (a b c : Nat), a < 2 ^ lw.bits → b < 2 ^ lw.bits → c ≤ 1 →
    addStep lw.bits a b c = ((a + b + c) % 2 ^ lw.bits, (a + b + c) / 2 ^ lw.bits) ∧
    ((subStep lw.bits a b c).1 : Int) = ((a : Int) - b - c) % 2 ^ lw.bits ∧
    (subStep lw.bits a b c).2 = (if a < b + c then 1 else 0) ∧
    ¬ (wrapAdd lw.bits a b < a ∧ wrapAdd lw.bits (wrapAdd lw.bits a b) c < wrapAdd lw.bits a b) ∧
    ¬ (a < wrapSub lw.bits a b ∧ wrapSub lw.bits a b < wrapSub lw.bits (wrapSub lw.bits a b) c) ∧
    (addStep lw.bits a b c).2 ≤ 1 ∧ (subStep lw.bits a b c).2 ≤ 1 ∧
    addStep lw.bits (2 ^ lw.bits - 1) (2 ^ lw.bits - 1) 1 = (2 ^ lw.bits - 1, 1) ∧
    wrapSub lw.bits 0 (2 ^ lw.bits - 1) = 1 ∧ subStep lw.bits 0 (2 ^ lw.bits - 1) 1 = (0, 1) ∧
    subStep lw.bits 0 0 1 = (2 ^ lw.bits - 1, 1)

/-- R151: the limb count of a result, with and without an extra limb. -/
def Obligations.AddSubLimbCount : Prop :=
  ∀ (lw : LimbWidth) (wA wB : Nat), 1 ≤ wA → 1 ≤ wB →
    let nmax := max (nl lw.bits wA) (nl lw.bits wB)
    nl lw.bits (max wA wB) = nmax ∧
    (max wA wB % lw.bits = 0 → nl lw.bits (max wA wB + 1) = nmax + 1) ∧
    (max wA wB % lw.bits ≠ 0 → nl lw.bits (max wA wB + 1) = nmax) ∧
    nl lw.bits wA ≤ nl lw.bits (max wA wB) ∧ nl lw.bits wB ≤ nl lw.bits (max wA wB) ∧
    nl lw.bits wA ≤ nl lw.bits (max wA wB + 1) ∧ nl lw.bits wB ≤ nl lw.bits (max wA wB + 1)

/-- R157, R162: `WADD` of two values completes whenever the width `max + 1` fits, whatever the limbs, and stores the sum
modulo `2^(nr*L)`; nothing else changes. The sources are read before the destination is written, so the three
register numbers may coincide (R295). -/
def Obligations.WaddStoresTheSum : Prop :=
  ∀ (s : State) (rd ra rb : RegNo) (a b : WideInt), s.reg ra = some a → s.reg rb = some b → a.Wf s.params →
    b.Wf s.params → max a.bw b.bw + 1 ≤ s.params.widthMax →
    ∃ R : List Nat,
      exec (.wadd rd ra rb) s =
        .next { s with regs := s.regs.set rd.toNat (some ⟨max a.bw b.bw + 1, R⟩) rd.isLt, cmd := s.cmd.drop 1 } ∧
      R.length = nl s.params.L (max a.bw b.bw + 1) ∧ (∀ x ∈ R, x < 2 ^ s.params.L) ∧
      val s.params.L R = (val s.params.L a.limbs + val s.params.L b.limbs) % 2 ^ (R.length * s.params.L)

/-- R158, R162: `WADDT` of two values always completes and stores the sum modulo `2^(nr*L)` at width `max`. -/
def Obligations.WaddtStoresTheWrappedSum : Prop :=
  ∀ (s : State) (rd ra rb : RegNo) (a b : WideInt), s.reg ra = some a → s.reg rb = some b → a.Wf s.params →
    b.Wf s.params →
    ∃ R : List Nat,
      exec (.waddt rd ra rb) s =
        .next { s with regs := s.regs.set rd.toNat (some ⟨max a.bw b.bw, R⟩) rd.isLt, cmd := s.cmd.drop 1 } ∧
      R.length = nl s.params.L (max a.bw b.bw) ∧ (∀ x ∈ R, x < 2 ^ s.params.L) ∧
      val s.params.L R = (val s.params.L a.limbs + val s.params.L b.limbs) % 2 ^ (R.length * s.params.L)

/-- R159, R162: `WSUB` of two values completes whenever the width `max + 1` fits and stores A minus B modulo
`2^(nr*L)`. -/
def Obligations.WsubStoresTheDifference : Prop :=
  ∀ (s : State) (rd ra rb : RegNo) (a b : WideInt), s.reg ra = some a → s.reg rb = some b → a.Wf s.params →
    b.Wf s.params → max a.bw b.bw + 1 ≤ s.params.widthMax →
    ∃ R : List Nat,
      exec (.wsub rd ra rb) s =
        .next { s with regs := s.regs.set rd.toNat (some ⟨max a.bw b.bw + 1, R⟩) rd.isLt, cmd := s.cmd.drop 1 } ∧
      R.length = nl s.params.L (max a.bw b.bw + 1) ∧ (∀ x ∈ R, x < 2 ^ s.params.L) ∧
      (val s.params.L R : Int) =
        ((val s.params.L a.limbs : Int) - val s.params.L b.limbs) % 2 ^ (R.length * s.params.L)

/-- R160, R162: `WSUBT` of two values always completes and stores A minus B modulo `2^(nr*L)` at width `max`. -/
def Obligations.WsubtStoresTheWrappedDifference : Prop :=
  ∀ (s : State) (rd ra rb : RegNo) (a b : WideInt), s.reg ra = some a → s.reg rb = some b → a.Wf s.params →
    b.Wf s.params →
    ∃ R : List Nat,
      exec (.wsubt rd ra rb) s =
        .next { s with regs := s.regs.set rd.toNat (some ⟨max a.bw b.bw, R⟩) rd.isLt, cmd := s.cmd.drop 1 } ∧
      R.length = nl s.params.L (max a.bw b.bw) ∧ (∀ x ∈ R, x < 2 ^ s.params.L) ∧
      (val s.params.L R : Int) =
        ((val s.params.L a.limbs : Int) - val s.params.L b.limbs) % 2 ^ (R.length * s.params.L)

/-- R161: the top limb of the results of `WADD` and `WSUB`. Where `max` is a multiple of `L` it is the carry, or all
ones for a borrow; elsewhere the carry of clean operands is one bit of it and a borrow sets that bit and every bit
above it. -/
def Obligations.TopLimbShowsCarryOrBorrow : Prop :=
  ∀ (p : Params) (a b : WideInt), a.Wf p → b.Wf p →
    let w := max a.bw b.bw
    let nmax := max a.limbs.length b.limbs.length
    let sum := (addAt p.L (w + 1) a b).limbs
    let diff := (subAt p.L (w + 1) a b).limbs
    (w % p.L = 0 →
      sum.length = nmax + 1 ∧ diff.length = nmax + 1 ∧
      sum.getD nmax 0 = (val p.L a.limbs + val p.L b.limbs) / 2 ^ (nmax * p.L) ∧ sum.getD nmax 0 ≤ 1 ∧
      diff.getD nmax 0 = (if val p.L a.limbs < val p.L b.limbs then 2 ^ p.L - 1 else 0) ∧
      val p.L sum = val p.L a.limbs + val p.L b.limbs) ∧
    (w % p.L ≠ 0 → sum.length = nmax ∧ diff.length = nmax ∧
      (a.Clean p.L → b.Clean p.L →
        (sum.getD (nmax - 1) 0).testBit (w % p.L) = decide (2 ^ w ≤ val p.L a.limbs + val p.L b.limbs) ∧
        (val p.L a.limbs < val p.L b.limbs →
          ∀ k, w % p.L ≤ k → k < p.L → (diff.getD (nmax - 1) 0).testBit k = true)))

/-- R162: the value laws of the four commands' results, for clean and dirty operands, and exactness for clean ones. -/
def Obligations.AddSubValueLaws : Prop :=
  ∀ (p : Params) (a b : WideInt), a.Wf p → b.Wf p →
    let w := max a.bw b.bw
    let va := val p.L a.limbs
    let vb := val p.L b.limbs
    val p.L (addAt p.L (w + 1) a b).limbs = (va + vb) % 2 ^ (nl p.L (w + 1) * p.L) ∧
    val p.L (addAt p.L w a b).limbs = (va + vb) % 2 ^ (nl p.L w * p.L) ∧
    (val p.L (subAt p.L (w + 1) a b).limbs : Int) = ((va : Int) - vb) % 2 ^ (nl p.L (w + 1) * p.L) ∧
    (val p.L (subAt p.L w a b).limbs : Int) = ((va : Int) - vb) % 2 ^ (nl p.L w * p.L) ∧
    (a.Clean p.L → b.Clean p.L →
      (val p.L (addAt p.L (w + 1) a b).limbs = va + vb ∧ (addAt p.L (w + 1) a b).Clean p.L) ∧
      (vb ≤ va → val p.L (subAt p.L (w + 1) a b).limbs = va - vb ∧ (subAt p.L (w + 1) a b).Clean p.L) ∧
      (va + vb < 2 ^ (nl p.L w * p.L) → val p.L (addAt p.L w a b).limbs = va + vb))

/-! ## Multiplier (42_multiply.md) -/

/-- R184: one inner step of the multiplier fits the widened type, so it loses nothing, and its carry fits a limb. -/
def Obligations.MultiplierCellNeverOverflows : Prop :=
  ∀ (lw : LimbWidth) (r k a b : Nat), r < 2 ^ lw.bits → k < 2 ^ lw.bits → a < 2 ^ lw.bits → b < 2 ^ lw.bits →
    r + k + a * b ≤ 2 ^ (2 * lw.bits) - 1 ∧
    mulCell lw.bits r k a b = ((r + k + a * b) % 2 ^ lw.bits, (r + k + a * b) / 2 ^ lw.bits) ∧
    (mulCell lw.bits r k a b).2 ≤ 2 ^ lw.bits - 1

/-- R181: the limb count of a product, with the rule's two examples. -/
def Obligations.ProductLimbCount : Prop :=
  (∀ (lw : LimbWidth) (wA wB : Nat), 1 ≤ wA → 1 ≤ wB →
    max (nl lw.bits wA) (nl lw.bits wB) ≤ nl lw.bits (wA + wB) ∧
    nl lw.bits (wA + wB) ≤ nl lw.bits wA + nl lw.bits wB) ∧
  nl 8 4 = 1 ∧ nl 8 (4 + 4) = 1 ∧ nl 8 9 = 2 ∧ nl 8 (9 + 9) = 3

/-- R183, R185: `WMUL` of two values completes whenever the width `wA + wB` fits and stores the product modulo
`2^(nr*L)`; the three register numbers may coincide (R295). -/
def Obligations.WmulStoresTheProduct : Prop :=
  ∀ (s : State) (rd ra rb : RegNo) (a b : WideInt), s.reg ra = some a → s.reg rb = some b → a.Wf s.params →
    b.Wf s.params → a.bw + b.bw ≤ s.params.widthMax →
    ∃ R : List Nat,
      exec (.wmul rd ra rb) s =
        .next { s with regs := s.regs.set rd.toNat (some ⟨a.bw + b.bw, R⟩) rd.isLt, cmd := s.cmd.drop 1 } ∧
      R.length = nl s.params.L (a.bw + b.bw) ∧ (∀ x ∈ R, x < 2 ^ s.params.L) ∧
      val s.params.L R = (val s.params.L a.limbs * val s.params.L b.limbs) % 2 ^ (R.length * s.params.L)

/-- R185: the value law of the product, exactness for clean operands, and the rule's dirty example. -/
def Obligations.ProductValueLaw : Prop :=
  (∀ (p : Params) (a b : WideInt), a.Wf p → b.Wf p →
    val p.L (mulOf p.L a b).limbs =
      (val p.L a.limbs * val p.L b.limbs) % 2 ^ (nl p.L (a.bw + b.bw) * p.L) ∧
    (a.Clean p.L → b.Clean p.L →
      val p.L a.limbs * val p.L b.limbs < 2 ^ (a.bw + b.bw) ∧
      2 ^ (a.bw + b.bw) ≤ 2 ^ (nl p.L (a.bw + b.bw) * p.L) ∧
      val p.L (mulOf p.L a b).limbs = val p.L a.limbs * val p.L b.limbs ∧ (mulOf p.L a b).Clean p.L)) ∧
  mulOf 8 ⟨4, [255]⟩ ⟨4, [255]⟩ = ⟨8, [1]⟩

/-- R187: the product is symmetric, in value, width and limbs, and a product with `(L, {1})` is the first operand's limbs
followed by zero limbs; with the rule's example. -/
def Obligations.ProductIsSymmetric : Prop :=
  (∀ (p : Params) (a b : WideInt), a.Wf p → b.Wf p →
    mulOf p.L a b = mulOf p.L b a ∧
    mulOf p.L a ⟨p.L, [1]⟩ =
      ⟨a.bw + p.L, a.limbs ++ List.replicate (nl p.L (a.bw + p.L) - a.limbs.length) 0⟩) ∧
  mulOf 8 ⟨24, [141, 25, 1]⟩ ⟨16, [123, 238]⟩ = ⟨40, [191, 92, 72, 6, 1]⟩

/-! ## Equality and promotion (43_equality_promotion.md) -/

/-- R202 with R201: `WEQ` of two values completes and sets `STATUS.EQ` exactly when their values are equal, whatever
their declared widths; nothing else changes. -/
def Obligations.WeqComparesValues : Prop :=
  ∀ (s : State) (ra rb : RegNo) (a b : WideInt), s.reg ra = some a → s.reg rb = some b → a.Wf s.params →
    b.Wf s.params →
    exec (.weq ra rb) s =
      .next { s with eqFlag := decide (val s.params.L a.limbs = val s.params.L b.limbs), cmd := s.cmd.drop 1 }

/-- R204 with R203: `WEQS` of a value and a limb completes and sets `STATUS.EQ` exactly when the value is the scalar. -/
def Obligations.WeqsComparesWithTheScalar : Prop :=
  ∀ (s : State) (ra : RegNo) (a : WideInt) (x : Nat), s.reg ra = some a → a.Wf s.params → x < 2 ^ s.params.L →
    exec (.weqs ra [BitVec.ofNat 32 x]) s =
      .next { s with eqFlag := decide (val s.params.L a.limbs = x), cmd := s.cmd.drop 2 }

/-- R203: `eqs(A, s)` asks for limb 0 to be `s` and every higher limb to be 0, it is `eq(A, promote(s))`, and it is 1
exactly when `val(A) = s`. -/
def Obligations.ScalarEqualityIsPromotedEquality : Prop :=
  ∀ (p : Params) (a : WideInt) (x : Nat), a.Wf p → x < 2 ^ p.L →
    (eqScalar a x = true ↔ a.limbs.headD 0 = x ∧ ∀ y ∈ a.limbs.tail, y = 0) ∧
    eqScalar a x = eqWide a (promote p.L x) ∧ (eqScalar a x = true ↔ val p.L a.limbs = x)

/-- R206 with R205: `WPRO` of a limb always completes and stores the one-limb value of width `L`, which is clean and has
the scalar as its value. -/
def Obligations.WproStoresThePromotedScalar : Prop :=
  ∀ (s : State) (rd : RegNo) (x : Nat), x < 2 ^ s.params.L →
    exec (.wpro rd [BitVec.ofNat 32 x]) s =
      .next { s with regs := s.regs.set rd.toNat (some ⟨s.params.L, [x]⟩) rd.isLt, cmd := s.cmd.drop 2 } ∧
    WideInt.Clean s.params.L ⟨s.params.L, [x]⟩ ∧ val s.params.L [x] = x

/-- R207 with R92: the five named constants, made by `WPRO`. -/
def Obligations.NamedConstantsArePromotedScalars : Prop :=
  ∀ (s : State) (rd : RegNo), ∀ e ∈ [(NamedConst.zero, 0), (.one, 1), (.two, 2), (.three, 3), (.ten, 10)],
    (wconst rd e.1).opcode = .wpro ∧
    exec (wconst rd e.1) s =
      .next { s with regs := s.regs.set rd.toNat (some ⟨s.params.L, [e.2]⟩) rd.isLt, cmd := s.cmd.drop 2 }

/-! ## Radix converter (44_radix.md) -/

/-- R222 with R221, R223: the estimated widths, from the radix and the digit count alone. -/
def Obligations.WidthEstimates : Prop :=
  (∀ n : Nat, est 8 n = some (3 * n) ∧
    est 10 n = some (1 + n * 332192809488736234787 / 100000000000000000000) ∧
    est 16 n = some (4 * n) ∧ est 64 n = some (6 * n)) ∧
  (∀ radix n : Nat, radix ∉ [8, 10, 16, 64] → est radix n = none) ∧
  [0, 1, 2, 3, 4, 5, 9, 10, 19, 20, 38, 39, 77, 78].map (est 10) =
    [1, 4, 7, 10, 14, 17, 30, 34, 64, 67, 127, 130, 256, 260].map some

/-- R232: the widened intermediates of the converter never overflow, and the carries stay as small as the rule says. -/
def Obligations.ConverterCellsNeverOverflow : Prop :=
  ∀ (lw : LimbWidth), ∀ radix ∈ [8, 10, 16, 64], ∀ x c : Nat, x < 2 ^ lw.bits →
    (c ≤ radix - 1 →
      x * radix + c ≤ radix * 2 ^ lw.bits - 1 ∧ radix * 2 ^ lw.bits - 1 ≤ 2 ^ (2 * lw.bits) - 1 ∧
      radixMulCell lw.bits radix x c = ((x * radix + c) % 2 ^ lw.bits, (x * radix + c) / 2 ^ lw.bits) ∧
      (radixMulCell lw.bits radix x c).2 ≤ radix - 1) ∧
    (c ≤ 63 →
      x + c < 2 ^ (2 * lw.bits) ∧ radixAddCell lw.bits x c = ((x + c) % 2 ^ lw.bits, (x + c) / 2 ^ lw.bits) ∧
      (radixAddCell lw.bits x c).2 ≤ 1)

/-- R229: after every number of digits the accumulator holds the value of those digits modulo `2^(nr*L)`, for every
digit sequence with every digit below 64, and each multiply step and add step does its part of it. For a digit at or
above the radix the rule infers the value from the algorithm, as U2 says of it (log 11). -/
def Obligations.ConverterIsHornersMethod : Prop :=
  ∀ (lw : LimbWidth), ∀ radix ∈ [8, 10, 16, 64],
    (∀ (nr : Nat) (ds : List Nat), (∀ d ∈ ds, d < 64) → ∀ t ≤ ds.length,
      (rdx lw.bits radix nr (ds.take t)).length = nr ∧
      val lw.bits (rdx lw.bits radix nr (ds.take t)) = digitsValue radix (ds.take t) % 2 ^ (nr * lw.bits)) ∧
    (∀ acc : List Nat, (∀ x ∈ acc, x < 2 ^ lw.bits) →
      val lw.bits (mulStep lw.bits radix acc 0) = (val lw.bits acc * radix) % 2 ^ (acc.length * lw.bits) ∧
      ∀ d < 64, val lw.bits (addDigit lw.bits acc d) = (val lw.bits acc + d) % 2 ^ (acc.length * lw.bits))

/-- R231: `WRDX` in a supported radix whose estimated width is positive and fits completes, for every sequence of 6-bit
digits (R233: a digit at or above the radix is not rejected), and stores the limbs `rdx` computes at the estimated
width; with every digit below the radix they are the digits' exact value, and clean (R230). For a digit at or above
the radix the clause `R = rdx ..`, and so which limbs are stored, is the model's reading (log 11): R233 asks every
claim about `WRDX` to take digits below the radix as a premise, and U2 calls the value inferred from the algorithm. -/
def Obligations.WrdxStoresTheConvertedValue : Prop :=
  ∀ (s : State) (rd : RegNo) (radix : BitVec 8) (n : BitVec 16) (ds : List Nat) (w : Nat), s.params.Legal →
    est radix.toNat n.toNat = some w → 1 ≤ w → w ≤ s.params.widthMax → ds.length = n.toNat → (∀ d ∈ ds, d < 64) →
    ∃ R : List Nat,
      exec (.wrdx rd radix n (ds.map (BitVec.ofNat 32))) s =
        .next { s with regs := s.regs.set rd.toNat (some ⟨w, R⟩) rd.isLt, cmd := s.cmd.drop (1 + n.toNat) } ∧
      R = rdx s.params.L radix.toNat (nl s.params.L w) ds ∧
      R.length = nl s.params.L w ∧ (∀ x ∈ R, x < 2 ^ s.params.L) ∧
      ((∀ d ∈ ds, d < radix.toNat) →
        val s.params.L R = digitsValue radix.toNat ds ∧ WideInt.Clean s.params.L ⟨w, R⟩)

/-- R230: with every digit below the radix, the estimated width is enough, for every digit count the block accepts: the
conversion is exact and its result clean. -/
def Obligations.ValidDigitsConvertExactly : Prop :=
  ∀ (p : Params) (radix w : Nat) (ds : List Nat), p.Legal → est radix ds.length = some w → w ≤ p.widthMax →
    (∀ d ∈ ds, d < radix) →
    digitsValue radix ds ≤ radix ^ ds.length - 1 ∧ radix ^ ds.length - 1 < 2 ^ w ∧
    val p.L (rdx p.L radix (nl p.L w) ds) = digitsValue radix ds ∧
    WideInt.Clean p.L ⟨w, rdx p.L radix (nl p.L w) ds⟩

/-- R234: the empty digit sequence. -/
def Obligations.EmptyDigitSequence : Prop :=
  ∀ (s : State) (rd : RegNo), s.params.Legal →
    (est 8 0 = some 0 ∧ est 16 0 = some 0 ∧ est 64 0 = some 0 ∧ est 10 0 = some 1) ∧
    RejectedWith s .zeroWidth (exec (.wrdx rd 8 0 []) s) ∧
    RejectedWith s .zeroWidth (exec (.wrdx rd 16 0 []) s) ∧
    RejectedWith s .zeroWidth (exec (.wrdx rd 64 0 []) s) ∧
    exec (.wrdx rd 10 0 []) s =
      .next { s with regs := s.regs.set rd.toNat (some ⟨1, [0]⟩) rd.isLt, cmd := s.cmd.drop 1 }

/-! ## System command and control registers (45_system.md, 10_state.md) -/

/-- R250: `SGET` of 0, 1 and 2 completes and appends `STATUS`, `HBR`, `CFG`; every other number is rejected. -/
def Obligations.SgetAppendsTheControlRegister : Prop :=
  ∀ (s : State) (csr : BitVec 16), s.params.Legal → s.rej = false → s.cause = 0#4 →
    (2 < csr.toNat → RejectedWith s .badCsr (exec (.sget csr) s)) ∧
    (csr.toNat ≤ 2 → ∃ w : Word, exec (.sget csr) s = .next { s with out := s.out ++ [w], cmd := s.cmd.drop 1 } ∧
      (csr.toNat = 0 → w.toNat = if s.eqFlag then 1 else 0) ∧
      (csr.toNat = 1 → w.toNat = s.hbr.toNat) ∧
      (csr.toNat = 2 → w.toNat = s.params.L + 256 * s.params.nlimbMax))

/-- R39, R40, R41: where the fields of the three control registers lie, and that every other bit reads 0. -/
def Obligations.ControlRegisterLayout : Prop :=
  ∀ s : State,
    (s.statusWord.getLsbD 0 = s.eqFlag ∧ s.statusWord.getLsbD 1 = s.rej ∧ s.statusWord.extractLsb' 2 2 = 0#2 ∧
      s.statusWord.extractLsb' 4 4 = s.cause ∧ s.statusWord.extractLsb' 8 24 = 0#24) ∧
    (s.hbrWord.extractLsb' 0 16 = s.hbr ∧ s.hbrWord.extractLsb' 16 16 = 0#16) ∧
    (s.params.Legal → (s.cfgWord.extractLsb' 0 8).toNat = s.params.L ∧
      (s.cfgWord.extractLsb' 8 16).toNat = s.params.nlimbMax ∧ s.cfgWord.extractLsb' 24 8 = 0#8)

/-! ## Rejects (60_exceptions.md) -/

/-- R266: each of the nine commands with a source register is rejected with `UNWRITTEN_REG` when one is empty, before
anything is said of widths or payload. -/
def Obligations.EmptySourceIsRejected : Prop :=
  ∀ (s : State) (rd ra rb : RegNo) (ws : List Word),
    (s.reg ra = none ∨ s.reg rb = none →
      RejectedWith s .unwrittenReg (exec (.wadd rd ra rb) s) ∧
      RejectedWith s .unwrittenReg (exec (.waddt rd ra rb) s) ∧
      RejectedWith s .unwrittenReg (exec (.wsub rd ra rb) s) ∧
      RejectedWith s .unwrittenReg (exec (.wsubt rd ra rb) s) ∧
      RejectedWith s .unwrittenReg (exec (.wmul rd ra rb) s) ∧
      RejectedWith s .unwrittenReg (exec (.weq ra rb) s)) ∧
    (s.reg ra = none →
      RejectedWith s .unwrittenReg (exec (.weqs ra ws) s) ∧
      RejectedWith s .unwrittenReg (exec (.whb ra) s) ∧
      RejectedWith s .unwrittenReg (exec (.wget ra) s))

/-- R267, R268: a width of 0 and a width above `WIDTH_MAX` are rejected from the command word and the register widths
alone, whatever payload has arrived; `WADDT`, `WSUBT` and `WPRO` never are. -/
def Obligations.IllegalWidthIsRejected : Prop :=
  ∀ (s : State) (rd ra rb : RegNo) (width : BitVec 16) (radix : BitVec 8) (n : BitVec 16) (ws : List Word),
    (width.toNat = 0 → RejectedWith s .zeroWidth (exec (.wset rd width ws) s)) ∧
    (s.params.widthMax < width.toNat → RejectedWith s .widthOverflow (exec (.wset rd width ws) s)) ∧
    (est radix.toNat n.toNat = some 0 ↔ n.toNat = 0 ∧ radix.toNat ∈ [8, 16, 64]) ∧
    (est radix.toNat n.toNat = some 0 → RejectedWith s .zeroWidth (exec (.wrdx rd radix n ws) s)) ∧
    (∀ w, est radix.toNat n.toNat = some w → s.params.widthMax < w →
      RejectedWith s .widthOverflow (exec (.wrdx rd radix n ws) s)) ∧
    (∀ a b : WideInt, s.reg ra = some a → s.reg rb = some b →
      (s.params.widthMax < max a.bw b.bw + 1 →
        RejectedWith s .widthOverflow (exec (.wadd rd ra rb) s) ∧
        RejectedWith s .widthOverflow (exec (.wsub rd ra rb) s)) ∧
      (s.params.widthMax < a.bw + b.bw → RejectedWith s .widthOverflow (exec (.wmul rd ra rb) s))) ∧
    (s.rej = false →
      ¬ RejectedWith s .widthOverflow (exec (.waddt rd ra rb) s) ∧
      ¬ RejectedWith s .widthOverflow (exec (.wsubt rd ra rb) s) ∧
      ¬ RejectedWith s .widthOverflow (exec (.wpro rd ws) s))

/-- R269: a complete payload with a 1 in a must-be-zero bit of some word is rejected with `BAD_PAYLOAD` after all other
checks have passed; with `L = 32` a limb word has no such bit. -/
def Obligations.BadPayloadIsRejected : Prop :=
  ∀ (s : State) (rd ra : RegNo) (width : BitVec 16) (radix : BitVec 8) (n : BitVec 16) (ws : List Word) (w : Nat),
    ((∃ x ∈ ws, 2 ^ s.params.L ≤ x.toNat) →
      (1 ≤ width.toNat → width.toNat ≤ s.params.widthMax → ws.length = nl s.params.L width.toNat →
        RejectedWith s .badPayload (exec (.wset rd width ws) s)) ∧
      (ws.length = 1 → RejectedWith s .badPayload (exec (.wpro rd ws) s)) ∧
      (ws.length = 1 → s.reg ra ≠ none → RejectedWith s .badPayload (exec (.weqs ra ws) s))) ∧
    ((∃ x ∈ ws, 64 ≤ x.toNat) → est radix.toNat n.toNat = some w → 1 ≤ w → w ≤ s.params.widthMax →
      ws.length = n.toNat → RejectedWith s .badPayload (exec (.wrdx rd radix n ws) s)) ∧
    (s.params.limbW = .w32 → s.rej = false →
      ¬ RejectedWith s .badPayload (exec (.wset rd width ws) s) ∧
      ¬ RejectedWith s .badPayload (exec (.wpro rd ws) s) ∧
      ¬ RejectedWith s .badPayload (exec (.weqs ra ws) s))

/-- R264, R265: an unassigned control-register number and an unsupported radix are rejected from the command word
alone. -/
def Obligations.IllegalFieldIsRejected : Prop :=
  ∀ (s : State) (csr : BitVec 16) (rd : RegNo) (radix : BitVec 8) (n : BitVec 16) (ws : List Word),
    (2 < csr.toNat → RejectedWith s .badCsr (exec (.sget csr) s)) ∧
    (radix.toNat ∉ [8, 10, 16, 64] → RejectedWith s .unsupportedRadix (exec (.wrdx rd radix n ws) s))

/-- R275: a command that meets none of the conditions 3 to 7 and whose payload has not all arrived makes the block wait:
the step changes nothing (log 4), and the wait is a stuck state, neither of the two ends of a run. -/
def Obligations.IncompletePayloadWaits : Prop :=
  ∀ (s : State) (i : Instr), s.rej = false → decode s.params.L s.cmd = .command i → i.WellFormed s.params.L = false →
    (∀ c, c ≠ .badPayload → ¬ Meets s i c) →
    step s = .next s ∧ s.Stuck ∧ ¬ s.EndedWell ∧ ¬ s.EndedBadly

/-- R271 with R261: a complete command that meets a reject condition is rejected for the lowest-numbered one, and one that
meets none runs. -/
def Obligations.LowestCauseIsRecorded : Prop :=
  ∀ (s : State) (i : Instr), s.rej = false → i.WellFormed s.params.L = true →
    (∀ c, LowestMet s i c → RejectedWith s c (exec i s)) ∧
    ((∀ c, ¬ Meets s i c) → ∃ t : State, exec i s = .next t ∧ t.rej = false)

/-- R270, R272: a step that rejects changes `REJ` and `CAUSE` and nothing else, and records one of the eight causes. That
the rejected command's words stay on `CMD` too is the model's choice (log 6). -/
def Obligations.RejectWritesOnlyRejAndCause : Prop :=
  ∀ s t : State, s.rej = false → step s = .next t → t.rej = true →
    t = { s with rej := true, cause := t.cause } ∧ 1 ≤ t.cause.toNat ∧ t.cause.toNat ≤ 8

/-- R273 with R270: a rejected block stays exactly as it is, however many steps pass. That such a step is the same state
is the model's reading (log 5). -/
def Obligations.RejectedBlockNeverLeaves : Prop :=
  ∀ (k : Nat) (s : State), s.rej = true → Sys2Proof.core.run k s = .next s

/-- R260: whether a command is rejected, and for which cause, depends on no limb value of a register and on no data bit
of a payload word. -/
def Obligations.RejectIgnoresMagnitudes : Prop :=
  ∀ (s t : State) (i j : Instr), s.rej = false → t.rej = false → SameShape s t →
    withoutMagnitudes s.params.L i = withoutMagnitudes s.params.L j →
    ∀ c, RejectedWith s c (exec i s) ↔ RejectedWith t c (exec j t)

/-! ## The whole machine -/

/-- R37, R40, R43, R45: what each command leaves unchanged, on every path: every register but its destination, the
parameters, `EQ` but for `WEQ` and `WEQS`, `HBR` but for `WHB`, `OUT` but for `WGET` and `SGET`; and `CMD` loses the
command's words or nothing. There is no memory (R60). Where the command is rejected, the clause on `CMD` is the model's
choice (log 6: no rule fixes the position, D30); where it waits, that nothing changes is the model's reading (log 4). -/
def Obligations.CommandFrame : Prop :=
  ∀ (i : Instr) (s t : State), exec i s = .next t →
    t.params = s.params ∧ (∀ r : RegNo, destOf i ≠ some r → t.reg r = s.reg r) ∧
    (i.opcode ≠ .weq → i.opcode ≠ .weqs → t.eqFlag = s.eqFlag) ∧
    (i.opcode ≠ .whb → t.hbr = s.hbr) ∧
    (i.opcode ≠ .wget → i.opcode ≠ .sget → t.out = s.out) ∧
    (t.cmd = s.cmd ∨ t.cmd = s.cmd.drop (1 + payloadLength s.params.L i))

/-- R52: the bounds a model may rely on hold after reset, for every legal choice of the parameters. -/
def Obligations.ResetMeetsTheBounds : Prop :=
  ∀ p : Params, p.Legal → (State.resetWith p).Inv

/-- R52: every step preserves the bounds: legal parameters, every value of a legal width with exactly its limbs, each
below `2^L`, `HBR` at most `WIDTH_MAX`, `CAUSE = 0` exactly while running, and no cause above 8. -/
def Obligations.StepKeepsTheBounds : Prop :=
  ∀ s t : State, s.Inv → step s = .next t → t.Inv

/-- R45: nothing is ever removed from `OUT` or changed in it. -/
def Obligations.OutputIsAppendOnly : Prop :=
  ∀ s t : State, step s = .next t → ∃ ws : List Word, t.out = s.out ++ ws

/-- R40, R43: `STATUS.EQ` is written by `WEQ` and `WEQS` and by nothing else, `HBR` by `WHB` and nothing else, a register
by a command that names it as `rd`. -/
def Obligations.OnlyNamedCommandsWrite : Prop :=
  ∀ s t : State, step s = .next t →
    (t.eqFlag ≠ s.eqFlag → ∃ i, decode s.params.L s.cmd = .command i ∧ (i.opcode = .weq ∨ i.opcode = .weqs)) ∧
    (t.hbr ≠ s.hbr → ∃ i, decode s.params.L s.cmd = .command i ∧ i.opcode = .whb) ∧
    (∀ r : RegNo, t.reg r ≠ s.reg r → t.reg r ≠ none ∧
      ∃ i, decode s.params.L s.cmd = .command i ∧ destOf i = some r)

/-- R260, R299: every step answers a next state; there is no fault and no refusal. That a wait and a rejected block are
next states is the model's reading (log 4, log 5). -/
def Obligations.StepAlwaysAnswersAState : Prop :=
  ∀ s : State, ∃ t : State, step s = .next t

/-- R299, R300: a run over the words on `CMD` settles within as many steps as there are words: it has ended well, has
ended badly, or is stuck inside its last command; and it never moves again by itself. That a settled block goes on
answering the same state is the model's reading (log 4, log 5). -/
def Obligations.EveryRunSettles : Prop :=
  ∀ s : State, ∃ (k : Nat) (t : State), k ≤ s.cmd.length ∧ Sys2Proof.core.run k s = .next t ∧
    (t.EndedWell ∨ t.EndedBadly ∨ t.Stuck) ∧ ∀ m, Sys2Proof.core.run (k + m) s = .next t

/-- R70: a step that changes anything sees no word behind the command it executes: with more words behind, it does the
same and leaves them behind. Where the step rejects, what is left on `CMD` is the model's choice (log 6). -/
def Obligations.LaterWordsAreNotSeen : Prop :=
  ∀ (s t : State) (ws : List Word), step s = .next t → t ≠ s → step (s.hostSend ws) = .next (t.hostSend ws)

/-- R80, R87, R90: a step that executes a command takes exactly its command word and its payload from `CMD`. -/
def Obligations.CompletedCommandTakesItsWords : Prop :=
  ∀ s t : State, s.rej = false → step s = .next t → t.rej = false → t ≠ s →
    ∃ i : Instr, decode s.params.L s.cmd = .command i ∧ i.WellFormed s.params.L = true ∧ s.cmd = encode i ++ t.cmd
end

