-- ==== Sys2Proof/Laws/State.lean ====
section
/-! SUPPORT. What each update of the state leaves in each field: one lemma per field per update, by `rfl`, so that no
proof unfolds a record update. -/

namespace Sys2Proof.Machine

/-! ### setReg -/
@[simp] theorem setReg_params (s : State) (r : RegNo) (v : WideInt) : (s.setReg r v).params = s.params := rfl
@[simp] theorem setReg_eqFlag (s : State) (r : RegNo) (v : WideInt) : (s.setReg r v).eqFlag = s.eqFlag := rfl
@[simp] theorem setReg_rej (s : State) (r : RegNo) (v : WideInt) : (s.setReg r v).rej = s.rej := rfl
@[simp] theorem setReg_cause (s : State) (r : RegNo) (v : WideInt) : (s.setReg r v).cause = s.cause := rfl
@[simp] theorem setReg_hbr (s : State) (r : RegNo) (v : WideInt) : (s.setReg r v).hbr = s.hbr := rfl
@[simp] theorem setReg_out (s : State) (r : RegNo) (v : WideInt) : (s.setReg r v).out = s.out := rfl
@[simp] theorem setReg_cmd (s : State) (r : RegNo) (v : WideInt) : (s.setReg r v).cmd = s.cmd := rfl

theorem reg_setReg (s : State) (r q : RegNo) (v : WideInt) :
    (s.setReg r v).reg q = if q = r then some v else s.reg q := by
  simp only [State.reg, State.setReg, Vector.getElem_set, BitVec.toNat_inj]
  by_cases h : r = q <;> simp [h, eq_comm]

@[simp] theorem reg_setReg_self (s : State) (r : RegNo) (v : WideInt) : (s.setReg r v).reg r = some v := by
  simp [reg_setReg]

theorem reg_setReg_of_ne (s : State) {r q : RegNo} (v : WideInt) (h : q ≠ r) :
    (s.setReg r v).reg q = s.reg q := by
  simp [reg_setReg, h]

/-! ### setEq -/
@[simp] theorem setEq_params (s : State) (b : Bool) : (s.setEq b).params = s.params := rfl
@[simp] theorem setEq_reg (s : State) (b : Bool) (r : RegNo) : (s.setEq b).reg r = s.reg r := rfl
@[simp] theorem setEq_eqFlag (s : State) (b : Bool) : (s.setEq b).eqFlag = b := rfl
@[simp] theorem setEq_rej (s : State) (b : Bool) : (s.setEq b).rej = s.rej := rfl
@[simp] theorem setEq_cause (s : State) (b : Bool) : (s.setEq b).cause = s.cause := rfl
@[simp] theorem setEq_hbr (s : State) (b : Bool) : (s.setEq b).hbr = s.hbr := rfl
@[simp] theorem setEq_out (s : State) (b : Bool) : (s.setEq b).out = s.out := rfl
@[simp] theorem setEq_cmd (s : State) (b : Bool) : (s.setEq b).cmd = s.cmd := rfl

/-! ### setHbr -/
@[simp] theorem setHbr_params (s : State) (v : Nat) : (s.setHbr v).params = s.params := rfl
@[simp] theorem setHbr_reg (s : State) (v : Nat) (r : RegNo) : (s.setHbr v).reg r = s.reg r := rfl
@[simp] theorem setHbr_eqFlag (s : State) (v : Nat) : (s.setHbr v).eqFlag = s.eqFlag := rfl
@[simp] theorem setHbr_rej (s : State) (v : Nat) : (s.setHbr v).rej = s.rej := rfl
@[simp] theorem setHbr_cause (s : State) (v : Nat) : (s.setHbr v).cause = s.cause := rfl
@[simp] theorem setHbr_hbr (s : State) (v : Nat) : (s.setHbr v).hbr = BitVec.ofNat 16 v := rfl
@[simp] theorem setHbr_out (s : State) (v : Nat) : (s.setHbr v).out = s.out := rfl
@[simp] theorem setHbr_cmd (s : State) (v : Nat) : (s.setHbr v).cmd = s.cmd := rfl

/-! ### outWrite -/
@[simp] theorem outWrite_params (s : State) (ws : List Word) : (s.outWrite ws).params = s.params := rfl
@[simp] theorem outWrite_reg (s : State) (ws : List Word) (r : RegNo) : (s.outWrite ws).reg r = s.reg r := rfl
@[simp] theorem outWrite_eqFlag (s : State) (ws : List Word) : (s.outWrite ws).eqFlag = s.eqFlag := rfl
@[simp] theorem outWrite_rej (s : State) (ws : List Word) : (s.outWrite ws).rej = s.rej := rfl
@[simp] theorem outWrite_cause (s : State) (ws : List Word) : (s.outWrite ws).cause = s.cause := rfl
@[simp] theorem outWrite_hbr (s : State) (ws : List Word) : (s.outWrite ws).hbr = s.hbr := rfl
@[simp] theorem outWrite_out (s : State) (ws : List Word) : (s.outWrite ws).out = s.out ++ ws := rfl
@[simp] theorem outWrite_cmd (s : State) (ws : List Word) : (s.outWrite ws).cmd = s.cmd := rfl

/-! ### consume -/
@[simp] theorem consume_params (s : State) (n : Nat) : (s.consume n).params = s.params := rfl
@[simp] theorem consume_reg (s : State) (n : Nat) (r : RegNo) : (s.consume n).reg r = s.reg r := rfl
@[simp] theorem consume_eqFlag (s : State) (n : Nat) : (s.consume n).eqFlag = s.eqFlag := rfl
@[simp] theorem consume_rej (s : State) (n : Nat) : (s.consume n).rej = s.rej := rfl
@[simp] theorem consume_cause (s : State) (n : Nat) : (s.consume n).cause = s.cause := rfl
@[simp] theorem consume_hbr (s : State) (n : Nat) : (s.consume n).hbr = s.hbr := rfl
@[simp] theorem consume_out (s : State) (n : Nat) : (s.consume n).out = s.out := rfl
@[simp] theorem consume_cmd (s : State) (n : Nat) : (s.consume n).cmd = s.cmd.drop (1 + n) := rfl

/-! ### rejected -/
@[simp] theorem rejected_params (s : State) (c : Cause) : (s.rejected c).params = s.params := rfl
@[simp] theorem rejected_reg (s : State) (c : Cause) (r : RegNo) : (s.rejected c).reg r = s.reg r := rfl
@[simp] theorem rejected_eqFlag (s : State) (c : Cause) : (s.rejected c).eqFlag = s.eqFlag := rfl
@[simp] theorem rejected_rej (s : State) (c : Cause) : (s.rejected c).rej = true := rfl
@[simp] theorem rejected_cause (s : State) (c : Cause) : (s.rejected c).cause = causeCode c := rfl
@[simp] theorem rejected_hbr (s : State) (c : Cause) : (s.rejected c).hbr = s.hbr := rfl
@[simp] theorem rejected_out (s : State) (c : Cause) : (s.rejected c).out = s.out := rfl
@[simp] theorem rejected_cmd (s : State) (c : Cause) : (s.rejected c).cmd = s.cmd := rfl

/-! ### hostSend -/
@[simp] theorem hostSend_params (s : State) (ws : List Word) : (s.hostSend ws).params = s.params := rfl
@[simp] theorem hostSend_reg (s : State) (ws : List Word) (r : RegNo) : (s.hostSend ws).reg r = s.reg r := rfl
@[simp] theorem hostSend_eqFlag (s : State) (ws : List Word) : (s.hostSend ws).eqFlag = s.eqFlag := rfl
@[simp] theorem hostSend_rej (s : State) (ws : List Word) : (s.hostSend ws).rej = s.rej := rfl
@[simp] theorem hostSend_cause (s : State) (ws : List Word) : (s.hostSend ws).cause = s.cause := rfl
@[simp] theorem hostSend_hbr (s : State) (ws : List Word) : (s.hostSend ws).hbr = s.hbr := rfl
@[simp] theorem hostSend_out (s : State) (ws : List Word) : (s.hostSend ws).out = s.out := rfl
@[simp] theorem hostSend_cmd (s : State) (ws : List Word) : (s.hostSend ws).cmd = s.cmd ++ ws := rfl

/-! ### resetWith -/
@[simp] theorem resetWith_params (p : Params) : (State.resetWith p).params = p := rfl
@[simp] theorem resetWith_eqFlag (p : Params) : (State.resetWith p).eqFlag = false := rfl
@[simp] theorem resetWith_rej (p : Params) : (State.resetWith p).rej = false := rfl
@[simp] theorem resetWith_cause (p : Params) : (State.resetWith p).cause = 0#4 := rfl
@[simp] theorem resetWith_hbr (p : Params) : (State.resetWith p).hbr = 0#16 := rfl
@[simp] theorem resetWith_out (p : Params) : (State.resetWith p).out = [] := rfl
@[simp] theorem resetWith_cmd (p : Params) : (State.resetWith p).cmd = [] := rfl

@[simp] theorem resetWith_regs (p : Params) : (State.resetWith p).regs = Vector.replicate 16 none := rfl

end Sys2Proof.Machine
end

