-- ==== Sys2Proof/Laws/Ops.lean ====
section
/-! SUPPORT. What each shared operation can do, said once: if it answers `next t`, then one of these cases holds. The
meanings are chains of these operations, so a proof about a meaning takes it apart with these lemmas and never
unfolds an operation. -/

namespace Sys2Proof.Machine

theorem reject_next {s t : State} {c : Cause} : reject s c = .next t ↔ t = s.rejected c := by
  simp [reject, eq_comm]

theorem withSource_some {s : State} {r : RegNo} {v : WideInt} (h : s.reg r = some v) (k : WideInt → Result) :
    withSource s r k = k v := by
  simp [withSource, h]

theorem withSource_none {s : State} {r : RegNo} (h : s.reg r = none) (k : WideInt → Result) :
    withSource s r k = reject s .unwrittenReg := by
  simp [withSource, h]

/-- A source register either is empty, and the command is rejected, or holds the value the command goes on with. -/
theorem withSource_cases (s : State) (r : RegNo) (k : WideInt → Result) :
    (s.reg r = none ∧ withSource s r k = reject s .unwrittenReg) ∨
    ∃ v, s.reg r = some v ∧ withSource s r k = k v := by
  cases h : s.reg r with
  | none => exact .inl ⟨rfl, withSource_none h k⟩
  | some v => exact .inr ⟨v, rfl, withSource_some h k⟩

theorem withSources_some {s : State} {ra rb : RegNo} {a b : WideInt} (ha : s.reg ra = some a)
    (hb : s.reg rb = some b) (k : WideInt → WideInt → Result) : withSources s ra rb k = k a b := by
  rw [withSources, withSource_some ha, withSource_some hb]

theorem withSources_none {s : State} {ra rb : RegNo} (h : s.reg ra = none ∨ s.reg rb = none)
    (k : WideInt → WideInt → Result) : withSources s ra rb k = reject s .unwrittenReg := by
  unfold withSources
  obtain ⟨_, h1⟩ | ⟨v, hv, h1⟩ := withSource_cases s ra fun a => withSource s rb fun b => k a b
  · exact h1
  · rw [h1]
    exact withSource_none (h.resolve_left (by simp [hv])) _

/-- Two source registers: one of them is empty, or the command goes on with both values. -/
theorem withSources_cases (s : State) (ra rb : RegNo) (k : WideInt → WideInt → Result) :
    ((s.reg ra = none ∨ s.reg rb = none) ∧ withSources s ra rb k = reject s .unwrittenReg) ∨
    ∃ a b, s.reg ra = some a ∧ s.reg rb = some b ∧ withSources s ra rb k = k a b := by
  cases ha : s.reg ra with
  | none => exact .inl ⟨.inl rfl, withSources_none (.inl ha) k⟩
  | some a =>
    cases hb : s.reg rb with
    | none => exact .inl ⟨.inr rfl, withSources_none (.inr hb) k⟩
    | some b => exact .inr ⟨a, b, rfl, rfl, withSources_some ha hb k⟩

theorem checkNonzero_pos {s : State} {w : Nat} (h : 0 < w) (k : Result) : checkNonzero s w k = k := by
  simp [checkNonzero, Nat.ne_of_gt h]

@[simp] theorem checkNonzero_zero (s : State) (k : Result) : checkNonzero s 0 k = reject s .zeroWidth := rfl

/-- The zero-width check rejects, or goes on with a positive width. -/
theorem checkNonzero_cases (s : State) (w : Nat) (k : Result) :
    (w = 0 ∧ checkNonzero s w k = reject s .zeroWidth) ∨ (0 < w ∧ checkNonzero s w k = k) := by
  obtain h | h := Nat.eq_zero_or_pos w
  · exact .inl ⟨h, by simp [h]⟩
  · exact .inr ⟨h, checkNonzero_pos h k⟩

theorem checkFits_le {s : State} {w : Nat} (h : w ≤ s.params.widthMax) (k : Result) : checkFits s w k = k := by
  simp [checkFits, Nat.not_lt.mpr h]

theorem checkFits_gt {s : State} {w : Nat} (h : s.params.widthMax < w) (k : Result) :
    checkFits s w k = reject s .widthOverflow := by
  simp [checkFits, h]

/-- The overflow check rejects, or goes on with a width within `WIDTH_MAX`. -/
theorem checkFits_cases (s : State) (w : Nat) (k : Result) :
    (s.params.widthMax < w ∧ checkFits s w k = reject s .widthOverflow) ∨
    (w ≤ s.params.widthMax ∧ checkFits s w k = k) := by
  obtain h | h := Nat.lt_or_ge s.params.widthMax w
  · exact .inl ⟨h, checkFits_gt h k⟩
  · exact .inr ⟨h, checkFits_le h k⟩

theorem withPayload_short {s : State} {n : Nat} {ws : List Word} (h : ws.length < n) (ok : Word → Bool)
    (k : List Word → Result) : withPayload s n ok ws k = .next s := by
  simp [withPayload, h]

theorem withPayload_full {s : State} {n : Nat} {ws : List Word} (h : ws.length = n) (ok : Word → Bool)
    (k : List Word → Result) :
    withPayload s n ok ws k = if ws.all ok then k ws else reject s .badPayload := by
  subst h
  simp [withPayload]

/-- The payload check waits for missing words, rejects a bad word, or goes on with exactly `n` good words. -/
theorem withPayload_cases (s : State) (n : Nat) (ok : Word → Bool) (ws : List Word) (k : List Word → Result) :
    (ws.length < n ∧ withPayload s n ok ws k = .next s) ∨
    (n ≤ ws.length ∧ (∃ w ∈ ws.take n, ok w = false) ∧ withPayload s n ok ws k = reject s .badPayload) ∨
    (n ≤ ws.length ∧ (∀ w ∈ ws.take n, ok w = true) ∧ withPayload s n ok ws k = k (ws.take n)) := by
  obtain h | h := Nat.lt_or_ge ws.length n
  · exact .inl ⟨h, withPayload_short h ok k⟩
  · by_cases hall : (ws.take n).all ok = true
    · refine .inr (.inr ⟨h, List.all_eq_true.mp hall, ?_⟩)
      unfold withPayload
      rw [if_neg (Nat.not_lt.mpr h), if_pos hall]
    · refine .inr (.inl ⟨h, by simpa using hall, ?_⟩)
      unfold withPayload
      rw [if_neg (Nat.not_lt.mpr h), if_neg hall]

theorem finishReg_next {s t : State} {rd : RegNo} {v : WideInt} {n : Nat} :
    finishReg s rd v n = .next t ↔ t = (s.setReg rd v).consume n := by
  simp [finishReg, eq_comm]

theorem finishEq_next {s t : State} {b : Bool} {n : Nat} :
    finishEq s b n = .next t ↔ t = (s.setEq b).consume n := by
  simp [finishEq, eq_comm]

theorem finishHbr_next {s t : State} {v : Nat} : finishHbr s v = .next t ↔ t = (s.setHbr v).consume 0 := by
  simp [finishHbr, eq_comm]

theorem finishOut_next {s t : State} {ws : List Word} :
    finishOut s ws = .next t ↔ t = (s.outWrite ws).consume 0 := by
  simp [finishOut, eq_comm]

/-- The control register numbers: 0, 1, 2, and no other (R61). -/
theorem csr_cases (s : State) (n : Nat) :
    (n = 0 ∧ s.csr n = some s.statusWord) ∨ (n = 1 ∧ s.csr n = some s.hbrWord) ∨
    (n = 2 ∧ s.csr n = some s.cfgWord) ∨ (2 < n ∧ s.csr n = none) := by
  match n with
  | 0 => exact .inl ⟨rfl, rfl⟩
  | 1 => exact .inr (.inl ⟨rfl, rfl⟩)
  | 2 => exact .inr (.inr (.inl ⟨rfl, rfl⟩))
  | n + 3 => exact .inr (.inr (.inr ⟨by omega, rfl⟩))

end Sys2Proof.Machine
end

