-- ==== Sys2Proof/Laws/Exec.lean ====
section
/-! SUPPORT. What executing a command can do, said once for all thirteen: it waits for its payload, or it is rejected, or
it makes one write of its own kind and takes its words from `CMD`. Frames and invariants follow from this lemma
without unfolding a meaning. -/

namespace Sys2Proof.Machine

/-- The one write a completed command makes, by its kind: its destination register, `EQ`, `HBR` or the end of `OUT`. -/
def Writes (i : Instr) (s u : State) : Prop :=
  (∃ (rd : RegNo) (v : WideInt), destOf i = some rd ∧ u = s.setReg rd v) ∨
  ((i.opcode = .weq ∨ i.opcode = .weqs) ∧ ∃ b : Bool, u = s.setEq b) ∨
  (i.opcode = .whb ∧ ∃ (ra : RegNo) (v : WideInt), s.reg ra = some v ∧ u = s.setHbr (hb s.params.L v)) ∨
  ((i.opcode = .wget ∨ i.opcode = .sget) ∧ ∃ ws : List Word, u = s.outWrite ws)

/-- The three ways a command can go. -/
def Goes (i : Instr) (s : State) (r : Result) : Prop :=
  (r = .next s ∧ (payloadOf i).length < payloadLength s.params.L i) ∨
  (∃ c, r = .next (s.rejected c)) ∨
  (∃ u : State, Writes i s u ∧ r = .next (u.consume (payloadLength s.params.L i)) ∧
    payloadLength s.params.L i ≤ (payloadOf i).length)

theorem goes_reject (i : Instr) (s : State) (c : Cause) : Goes i s (reject s c) := .inr (.inl ⟨c, rfl⟩)

theorem goes_reg {i : Instr} {s : State} {rd : RegNo} (v : WideInt) (hd : destOf i = some rd)
    (hl : payloadLength s.params.L i ≤ (payloadOf i).length) :
    Goes i s (finishReg s rd v (payloadLength s.params.L i)) :=
  .inr (.inr ⟨_, .inl ⟨rd, v, hd, rfl⟩, rfl, hl⟩)

theorem goes_checkNonzero {i : Instr} {s : State} {w : Nat} {k : Result} (h : Goes i s k) :
    Goes i s (checkNonzero s w k) := by
  obtain ⟨_, e⟩ | ⟨_, e⟩ := checkNonzero_cases s w k <;> rw [e]
  · exact goes_reject i s _
  · exact h

theorem goes_checkFits {i : Instr} {s : State} {w : Nat} {k : Result} (h : Goes i s k) :
    Goes i s (checkFits s w k) := by
  obtain ⟨_, e⟩ | ⟨_, e⟩ := checkFits_cases s w k <;> rw [e]
  · exact goes_reject i s _
  · exact h

theorem goes_withSource {i : Instr} {s : State} {r : RegNo} {k : WideInt → Result}
    (h : ∀ v, s.reg r = some v → Goes i s (k v)) : Goes i s (withSource s r k) := by
  obtain ⟨_, e⟩ | ⟨v, hv, e⟩ := withSource_cases s r k <;> rw [e]
  · exact goes_reject i s _
  · exact h v hv

theorem goes_withSources {i : Instr} {s : State} {ra rb : RegNo} {k : WideInt → WideInt → Result}
    (h : ∀ a b, s.reg ra = some a → s.reg rb = some b → Goes i s (k a b)) : Goes i s (withSources s ra rb k) := by
  obtain ⟨_, e⟩ | ⟨a, b, ha, hb, e⟩ := withSources_cases s ra rb k <;> rw [e]
  · exact goes_reject i s _
  · exact h a b ha hb

theorem goes_withPayload {i : Instr} {s : State} {ok : Word → Bool} {k : List Word → Result}
    (h : payloadLength s.params.L i ≤ (payloadOf i).length → ∀ ws, Goes i s (k ws)) :
    Goes i s (withPayload s (payloadLength s.params.L i) ok (payloadOf i) k) := by
  obtain ⟨hl, e⟩ | ⟨_, _, e⟩ | ⟨hl, _, e⟩ :=
    withPayload_cases s (payloadLength s.params.L i) ok (payloadOf i) k <;> rw [e]
  · exact .inl ⟨rfl, hl⟩
  · exact goes_reject i s _
  · exact h hl _

theorem goes_wset (rd : RegNo) (width : BitVec 16) (ws : List Word) (s : State) :
    Goes (.wset rd width ws) s (exec (.wset rd width ws) s) :=
  goes_checkNonzero <| goes_checkFits <| goes_withPayload (i := .wset rd width ws) fun hl _ => goes_reg _ rfl hl

theorem goes_wpro (rd : RegNo) (ws : List Word) (s : State) : Goes (.wpro rd ws) s (exec (.wpro rd ws) s) :=
  goes_withPayload (i := .wpro rd ws) fun hl _ => goes_reg _ rfl hl

theorem goes_wrdx (rd : RegNo) (radix : BitVec 8) (n : BitVec 16) (ws : List Word) (s : State) :
    Goes (.wrdx rd radix n ws) s (exec (.wrdx rd radix n ws) s) := by
  simp only [exec, execWrdx]
  cases est radix.toNat n.toNat with
  | none => exact goes_reject _ s _
  | some w =>
    exact goes_checkNonzero <| goes_checkFits <|
      goes_withPayload (i := .wrdx rd radix n ws) fun hl _ => goes_reg _ rfl hl

theorem goes_wadd (rd ra rb : RegNo) (s : State) : Goes (.wadd rd ra rb) s (exec (.wadd rd ra rb) s) :=
  goes_withSources fun _ _ _ _ => goes_checkFits <| goes_reg _ rfl (Nat.le_refl 0)

theorem goes_waddt (rd ra rb : RegNo) (s : State) : Goes (.waddt rd ra rb) s (exec (.waddt rd ra rb) s) :=
  goes_withSources fun _ _ _ _ => goes_reg _ rfl (Nat.le_refl 0)

theorem goes_wsub (rd ra rb : RegNo) (s : State) : Goes (.wsub rd ra rb) s (exec (.wsub rd ra rb) s) :=
  goes_withSources fun _ _ _ _ => goes_checkFits <| goes_reg _ rfl (Nat.le_refl 0)

theorem goes_wsubt (rd ra rb : RegNo) (s : State) : Goes (.wsubt rd ra rb) s (exec (.wsubt rd ra rb) s) :=
  goes_withSources fun _ _ _ _ => goes_reg _ rfl (Nat.le_refl 0)

theorem goes_wmul (rd ra rb : RegNo) (s : State) : Goes (.wmul rd ra rb) s (exec (.wmul rd ra rb) s) :=
  goes_withSources fun _ _ _ _ => goes_checkFits <| goes_reg _ rfl (Nat.le_refl 0)

theorem goes_weq (ra rb : RegNo) (s : State) : Goes (.weq ra rb) s (exec (.weq ra rb) s) :=
  goes_withSources fun _ _ _ _ => .inr (.inr ⟨_, .inr (.inl ⟨.inl rfl, _, rfl⟩), rfl, Nat.le_refl 0⟩)

theorem goes_weqs (ra : RegNo) (ws : List Word) (s : State) : Goes (.weqs ra ws) s (exec (.weqs ra ws) s) :=
  goes_withSource fun _ _ => goes_withPayload (i := .weqs ra ws) fun hl _ =>
    .inr (.inr ⟨_, .inr (.inl ⟨.inr rfl, _, rfl⟩), rfl, hl⟩)

theorem goes_whb (ra : RegNo) (s : State) : Goes (.whb ra) s (exec (.whb ra) s) :=
  goes_withSource fun v hv => .inr (.inr ⟨_, .inr (.inr (.inl ⟨rfl, ra, v, hv, rfl⟩)), rfl, Nat.le_refl 0⟩)

theorem goes_wget (ra : RegNo) (s : State) : Goes (.wget ra) s (exec (.wget ra) s) :=
  goes_withSource fun _ _ => .inr (.inr ⟨_, .inr (.inr (.inr ⟨.inl rfl, _, rfl⟩)), rfl, Nat.le_refl 0⟩)

theorem goes_sget (csr : BitVec 16) (s : State) : Goes (.sget csr) s (exec (.sget csr) s) := by
  simp only [exec, execSget]
  cases s.csr csr.toNat with
  | none => exact goes_reject _ s _
  | some w => exact .inr (.inr ⟨_, .inr (.inr (.inr ⟨.inr rfl, _, rfl⟩)), rfl, Nat.le_refl 0⟩)

/-- What executing a command can do: wait, be rejected, or make its one write and take its words. -/
theorem exec_goes (i : Instr) (s : State) : Goes i s (exec i s) := by
  cases i with
  | wset rd width ws => exact goes_wset rd width ws s
  | wpro rd ws => exact goes_wpro rd ws s
  | wrdx rd radix n ws => exact goes_wrdx rd radix n ws s
  | wadd rd ra rb => exact goes_wadd rd ra rb s
  | waddt rd ra rb => exact goes_waddt rd ra rb s
  | wsub rd ra rb => exact goes_wsub rd ra rb s
  | wsubt rd ra rb => exact goes_wsubt rd ra rb s
  | wmul rd ra rb => exact goes_wmul rd ra rb s
  | weq ra rb => exact goes_weq ra rb s
  | weqs ra ws => exact goes_weqs ra ws s
  | whb ra => exact goes_whb ra s
  | wget ra => exact goes_wget ra s
  | sget csr => exact goes_sget csr s

/-- What a step can do: a rejected or idle block stays as it is, a word that is no command is rejected, a command
is executed. -/
theorem step_cases (s : State) :
    (s.rej = true ∧ step s = .next s) ∨
    (s.rej = false ∧ s.cmd = [] ∧ step s = .next s) ∨
    (s.rej = false ∧ ∃ c, decode s.params.L s.cmd = .reject c ∧ step s = .next (s.rejected c)) ∨
    (s.rej = false ∧ ∃ i, decode s.params.L s.cmd = .command i ∧ step s = exec i s) := by
  cases hr : s.rej with
  | true => exact .inl ⟨rfl, by simp [step, hr]⟩
  | false =>
    cases hd : decode s.params.L s.cmd with
    | idle =>
      refine .inr (.inl ⟨rfl, ?_, by simp [step, hr, hd]⟩)
      cases hc : s.cmd with
      | nil => rfl
      | cons w rest =>
        rw [hc] at hd
        simp only [decode] at hd
        split at hd
        · cases hd
        · split at hd <;> cases hd
    | reject c => exact .inr (.inr (.inl ⟨rfl, c, rfl, by simp [step, hr, hd, reject]⟩))
    | command i => exact .inr (.inr (.inr ⟨rfl, i, rfl, by simp [step, hr, hd]⟩))

end Sys2Proof.Machine
end

