-- ==== Sys2Proof/Laws/Limbs.lean ====
section
/-! SUPPORT. The arithmetic of limb lists and limb counts that every value law rests on. -/

namespace Sys2Proof.Machine

@[simp] theorem val_nil (L : Nat) : val L [] = 0 := rfl

@[simp] theorem val_cons (L x : Nat) (xs : List Nat) : val L (x :: xs) = x + 2 ^ L * val L xs := rfl

/-- A limb list with a limb missing at the top reads it as 0. -/
theorem val_headD_tail (L : Nat) (xs : List Nat) : val L xs = xs.headD 0 + 2 ^ L * val L xs.tail := by
  cases xs <;> simp

@[simp] theorem val_replicate_zero (L n : Nat) : val L (List.replicate n 0) = 0 := by
  induction n with
  | zero => rfl
  | succ n ih => simp [List.replicate_succ, ih]

/-- A list of `n` limbs stands for a number below `2^(n*L)`. -/
theorem val_lt_of_limbs_lt {L : Nat} {xs : List Nat} (h : ∀ x ∈ xs, x < 2 ^ L) : val L xs < 2 ^ (xs.length * L) := by
  induction xs with
  | nil => simp
  | cons x xs ih =>
    have hx : x < 2 ^ L := h x (by simp)
    have hr := Nat.mul_le_mul_left (2 ^ L) (ih fun y hy => h y (by simp [hy]))
    rw [List.length_cons, Nat.succ_mul, Nat.add_comm (xs.length * L), pow_add, val_cons]
    rw [Nat.mul_succ] at hr
    omega

/-- The value of two limb lists joined. -/
theorem val_append_limbs (L : Nat) (xs ys : List Nat) :
    val L (xs ++ ys) = val L xs + 2 ^ (xs.length * L) * val L ys := by
  induction xs with
  | nil => simp
  | cons x xs ih =>
    rw [List.cons_append, val_cons, ih, val_cons, List.length_cons, Nat.succ_mul, Nat.add_comm (xs.length * L), pow_add]
    ring

/-- `nl` is the smallest number of limbs that hold the width. -/
theorem nl_bounds {L : Nat} (hL : 1 ≤ L) (w : Nat) : nl L w * L < w + L ∧ w ≤ nl L w * L := by
  have h := Nat.div_add_mod (w + L - 1) L
  have hm := Nat.mod_lt (w + L - 1) hL
  rw [Nat.mul_comm] at h
  simp only [nl]
  omega

theorem nl_monotone (L : Nat) {v w : Nat} (h : v ≤ w) : nl L v ≤ nl L w := Nat.div_le_div_right (by omega)

end Sys2Proof.Machine
end

