-- ==== Sys2Proof/Laws/PerInstr.lean ====
section
/-! SUPPORT. The family `HeadMatches`: the command word the encoder writes from the format table (R82) satisfies the
match and mask of its row in the opcode map (R83), for every instruction. -/

namespace Sys2Proof.Laws.HeadMatches

open Sys2Proof

/-- The encoder's command word satisfies its opcode's row: its must-be-zero fields are zero. -/
def Statement (i : Instr) : Prop := headWord i &&& maskOf i.opcode = matchOf i.opcode

/-- A packed word meets a match and mask when each of its 32 bits does. -/
theorem word_ext {x y : Word} (h : ∀ i, i < 32 → x.getLsbD i = y.getLsbD i) : x = y :=
  BitVec.eq_of_getLsbD_eq h

theorem wset (rd : RegNo) (width : BitVec 16) (ws : List Word) : Statement (.wset rd width ws) := by
  refine word_ext fun i hi => ?_
  interval_cases i <;> simp [headWord, packWord, maskOf, matchOf, Instr.opcode]

theorem wpro (rd : RegNo) (ws : List Word) : Statement (.wpro rd ws) := by
  refine word_ext fun i hi => ?_
  interval_cases i <;> simp [headWord, packWord, maskOf, matchOf, Instr.opcode]

theorem wrdx (rd : RegNo) (radix : BitVec 8) (n : BitVec 16) (ws : List Word) : Statement (.wrdx rd radix n ws) := by
  refine word_ext fun i hi => ?_
  interval_cases i <;> simp [headWord, packRadixWord, maskOf, matchOf, Instr.opcode]

theorem wadd (rd ra rb : RegNo) : Statement (.wadd rd ra rb) := by
  refine word_ext fun i hi => ?_
  interval_cases i <;> simp [headWord, packWord, maskOf, matchOf, Instr.opcode]

theorem waddt (rd ra rb : RegNo) : Statement (.waddt rd ra rb) := by
  refine word_ext fun i hi => ?_
  interval_cases i <;> simp [headWord, packWord, maskOf, matchOf, Instr.opcode]

theorem wsub (rd ra rb : RegNo) : Statement (.wsub rd ra rb) := by
  refine word_ext fun i hi => ?_
  interval_cases i <;> simp [headWord, packWord, maskOf, matchOf, Instr.opcode]

theorem wsubt (rd ra rb : RegNo) : Statement (.wsubt rd ra rb) := by
  refine word_ext fun i hi => ?_
  interval_cases i <;> simp [headWord, packWord, maskOf, matchOf, Instr.opcode]

theorem wmul (rd ra rb : RegNo) : Statement (.wmul rd ra rb) := by
  refine word_ext fun i hi => ?_
  interval_cases i <;> simp [headWord, packWord, maskOf, matchOf, Instr.opcode]

theorem weq (ra rb : RegNo) : Statement (.weq ra rb) := by
  refine word_ext fun i hi => ?_
  interval_cases i <;> simp [headWord, packWord, maskOf, matchOf, Instr.opcode]

theorem weqs (ra : RegNo) (ws : List Word) : Statement (.weqs ra ws) := by
  refine word_ext fun i hi => ?_
  interval_cases i <;> simp [headWord, packWord, maskOf, matchOf, Instr.opcode]

theorem whb (ra : RegNo) : Statement (.whb ra) := by
  refine word_ext fun i hi => ?_
  interval_cases i <;> simp [headWord, packWord, maskOf, matchOf, Instr.opcode]

theorem wget (ra : RegNo) : Statement (.wget ra) := by
  refine word_ext fun i hi => ?_
  interval_cases i <;> simp [headWord, packWord, maskOf, matchOf, Instr.opcode]

theorem sget (csr : BitVec 16) : Statement (.sget csr) := by
  refine word_ext fun i hi => ?_
  interval_cases i <;> simp [headWord, packWord, maskOf, matchOf, Instr.opcode]

end Sys2Proof.Laws.HeadMatches
end

