-- ==== Sys2Proof/Tests/Slice0.lean ====
section
/-! SUPPORT. Tests: the well-formedness checks refuse ill-formed terms, words written out from the spec's encodings decode
to their commands, single steps give what the spec's vectors say (the source of each is named), and for every
obligation with hypotheses a concrete state and operands meet all of them. -/

namespace Sys2Proof.Tests

open Sys2Proof Sys2Proof.Machine

/-- A running block with some registers written. -/
def block (p : Params) (rs : List (RegNo × WideInt)) : State :=
  rs.foldl (fun s r => s.setReg r.1 r.2) (State.resetWith p)

/-- The next state a command answers, if it answers one. -/
def after (i : Instr) (s : State) : Option State :=
  match exec i s with
  | .next t => some t
  | .fault _ => none
  | .refused _ => none

/-- `L = 8`, `NLIMB_MAX = 8`: the parameters of programs P1 and P2. -/
def p8 : Params := ⟨.w8, 8⟩
def p16 : Params := ⟨.w16, 4⟩
def p32 : Params := ⟨.w32, 5⟩

/-! ## Well-formedness: one term for each payload form, refused -/

theorem test_wellFormed_wset_short : (Instr.wset 1 16 [123#32]).WellFormed 8 = false := by decide
theorem test_wellFormed_wpro_empty : (Instr.wpro 0 []).WellFormed 8 = false := by decide
theorem test_wellFormed_wrdx_long : (Instr.wrdx 0 10 1 [1#32, 2#32]).WellFormed 8 = false := by decide
theorem test_wellFormed_weqs_empty : (Instr.weqs 0 []).WellFormed 8 = false := by decide
theorem test_wellFormed_wset : (Instr.wset 1 16 [123#32, 238#32]).WellFormed 8 = true := by decide

/-! ## Decoding of words written out from 30_encoding.md R81 to R83, R95 and the programs of 95_test_vectors.md -/

/-- P1, command 1: op 1, rd 1, imm 16. -/
theorem test_decode_wset :
    decode 8 [0b00010001000000000000000000010000#32, 0x7B#32, 0xEE#32] = .command (.wset 1 16 [0x7B#32, 0xEE#32]) := by
  decide
/-- P1, command 4: op 2, rd 4. -/
theorem test_decode_wpro : decode 8 [0b00100100000000000000000000000000#32, 65#32] = .command (.wpro 4 [65#32]) := by
  decide
/-- P2, command 8: op 3, rd 3, radix 64, n 2. -/
theorem test_decode_wrdx :
    decode 8 [0b00110011010000000000000000000010#32, 3#32, 63#32] = .command (.wrdx 3 64 2 [3#32, 63#32]) := by decide
/-- P1, command 5. -/
theorem test_decode_wadd : decode 8 [0b01000101001101000000000000000000#32] = .command (.wadd 5 3 4) := by decide
/-- P2, command 10. -/
theorem test_decode_waddt : decode 8 [0b01010100000000010000000000000000#32] = .command (.waddt 4 0 1) := by decide
/-- P3, command 3. -/
theorem test_decode_wsub : decode 8 [0b01100011000100100000000000000000#32] = .command (.wsub 3 1 2) := by decide
/-- P3, command 4. -/
theorem test_decode_wsubt : decode 8 [0b01110100000100100000000000000000#32] = .command (.wsubt 4 1 2) := by decide
/-- P1, command 3. -/
theorem test_decode_wmul : decode 8 [0b10000011000100100000000000000000#32] = .command (.wmul 3 1 2) := by decide
/-- P2, command 9. -/
theorem test_decode_weq : decode 8 [0b10010000001000110000000000000000#32] = .command (.weq 2 3) := by decide
/-- R95. -/
theorem test_decode_weqs : decode 8 [0b10100000000000000000000000000000#32, 255#32] = .command (.weqs 0 [255#32]) := by
  decide
/-- P1, command 6. -/
theorem test_decode_whb : decode 8 [0b10110000010100000000000000000000#32] = .command (.whb 5) := by decide
/-- P1, command 7. -/
theorem test_decode_wget : decode 8 [0b11000000010100000000000000000000#32] = .command (.wget 5) := by decide
/-- R95. -/
theorem test_decode_sget : decode 8 [0b11010000000000000000000000000001#32] = .command (.sget 1) := by decide
/-- X1, X2, X3. -/
theorem test_decode_illegal :
    decode 8 [0x00000000#32] = .reject .illegalOpcode ∧ decode 8 [0xE0000000#32] = .reject .illegalOpcode ∧
    decode 8 [0xFFFFFFFF#32] = .reject .illegalOpcode := by decide
/-- X4 to X7. -/
theorem test_decode_reserved :
    decode 8 [0x45340001#32] = .reject .reservedNonzero ∧ decode 8 [0x91010000#32] = .reject .reservedNonzero ∧
    decode 8 [0xD0010000#32] = .reject .reservedNonzero ∧
    decode 8 [0x21000001#32, 5#32] = .reject .reservedNonzero := by decide
/-- X40: a payload word that looks like a command is data. -/
theorem test_decode_payload_is_data :
    decode 32 [0x20000000#32, 0xC0000000#32, 0xC0000000#32] = .command (.wpro 0 [0xC0000000#32]) := by decide
theorem test_decodeTableWord :
    decodeTableWord 32 0x45340000 = some (.wadd 5 3 4) ∧ decodeTableWord 32 0x24000000 = some (.wpro 4 [0#32]) := by
  decide
/-- The placed instruction is the one the next step runs. -/
theorem test_withFetchWord :
    decode 8 (State.reset.withFetchWord 64 (0x24000000 + 65 * 2 ^ 32)).cmd = .command (.wpro 4 [65#32]) := by decide

/-! ## Single steps -/

/-- P1, command 1 (S9). -/
theorem test_wset : (after (.wset 1 16 [123#32, 238#32]) (block p8 [])).map (·.reg 1) = some (some ⟨16, [123, 238]⟩) := by
  decide
/-- X32: a payload bit above the limb. -/
theorem test_wset_badPayload : (after (.wset 0 8 [256#32]) (block p8 [])).map (·.statusWord) = some 0x82#32 := by decide
/-- 95_test_vectors.md section 8. -/
theorem test_wpro : (after (.wpro 4 [65#32]) (block p8 [])).map (·.reg 4) = some (some ⟨8, [65]⟩) := by decide
/-- X33. -/
theorem test_wpro_badPayload : (after (.wpro 0 [511#32]) (block p8 [])).map (·.statusWord) = some 0x82#32 := by decide
/-- P2, command 1. -/
theorem test_wrdx :
    (after (.wrdx 0 10 3 [2#32, 5#32, 5#32]) (block p8 [])).map (·.reg 0) = some (some ⟨10, [255, 0]⟩) := by decide
/-- R235: the carries of the multiply step. -/
theorem test_wrdx_carries :
    (after (.wrdx 3 10 5 [6#32, 5#32, 5#32, 3#32, 5#32]) (block p8 [])).map (·.reg 3) =
      some (some ⟨17, [255, 255, 0]⟩) := by decide
/-- Section 2: the carry ripples through two limbs, the operands have different limb counts. -/
theorem test_wadd_carry :
    (after (.wadd 3 1 2) (block p8 [(1, ⟨16, [255, 255]⟩), (2, ⟨8, [1]⟩)])).map (·.reg 3) =
      some (some ⟨17, [0, 0, 1]⟩) := by decide
/-- P4, command 2: both sources are one register. -/
theorem test_wadd_same_source :
    (after (.wadd 0 0 0) (block p8 [(0, ⟨8, [200]⟩)])).map (·.reg 0) = some (some ⟨9, [144, 1]⟩) := by decide
/-- P2, command 10. -/
theorem test_waddt :
    (after (.waddt 4 0 1) (block p8 [(0, ⟨10, [255, 0]⟩), (1, ⟨8, [255]⟩)])).map (·.reg 4) =
      some (some ⟨10, [254, 1]⟩) := by decide
/-- Section 3: the result of clean operands is dirty. -/
theorem test_waddt_dirty :
    (after (.waddt 3 1 2) (block p8 [(1, ⟨7, [127]⟩), (2, ⟨7, [127]⟩)])).map (·.reg 3) = some (some ⟨7, [254]⟩) := by
  decide
/-- Section 4: A minus B, the borrow fills the extra limb. -/
theorem test_wsub_borrow :
    (after (.wsub 3 1 2) (block p8 [(1, ⟨8, [3]⟩), (2, ⟨8, [5]⟩)])).map (·.reg 3) = some (some ⟨9, [254, 255]⟩) := by
  decide
/-- P3, command 11: the destination is both sources. -/
theorem test_wsub_same :
    (after (.wsub 1 1 1) (block p16 [(1, ⟨20, [5, 0]⟩)])).map (·.reg 1) = some (some ⟨21, [0, 0]⟩) := by decide
/-- Section 5. -/
theorem test_wsubt :
    (after (.wsubt 4 1 2) (block p8 [(1, ⟨8, [1]⟩), (2, ⟨16, [0, 1]⟩)])).map (·.reg 4) =
      some (some ⟨16, [1, 255]⟩) := by decide
/-- P3, command 4. -/
theorem test_wsubt_wide :
    (after (.wsubt 4 1 2) (block p16 [(1, ⟨20, [5, 0]⟩), (2, ⟨16, [7]⟩)])).map (·.reg 4) =
      some (some ⟨20, [65534, 65535]⟩) := by decide
/-- S4. -/
theorem test_wmul :
    (after (.wmul 3 1 2) (block p8 [(1, ⟨16, [123, 238]⟩), (2, ⟨24, [141, 25, 1]⟩)])).map (·.reg 3) =
      some (some ⟨40, [191, 92, 72, 6, 1]⟩) := by decide
/-- Section 6: the bounded write index drops the top limb of a dirty product. -/
theorem test_wmul_bounded :
    (after (.wmul 3 1 2) (block p8 [(1, ⟨9, [255, 255]⟩), (2, ⟨9, [255, 255]⟩)])).map (·.reg 3) =
      some (some ⟨18, [1, 0, 254]⟩) := by decide
/-- S5: different declared widths. -/
theorem test_weq :
    (after (.weq 1 2) (block p8 [(1, ⟨64, [255, 127, 0, 0, 0, 0, 0, 0]⟩), (2, ⟨16, [255, 127]⟩)])).map (·.eqFlag) =
      some true := by decide
/-- Section 8: only a padding bit differs. -/
theorem test_weq_padding :
    (after (.weq 1 2) (block p8 [(1, ⟨7, [255]⟩), (2, ⟨7, [127]⟩)])).map (·.eqFlag) = some false := by decide
/-- Section 8. -/
theorem test_weqs :
    (after (.weqs 1 [255#32]) (block p8 [(1, ⟨10, [255, 0]⟩)])).map (·.eqFlag) = some true := by decide
/-- Section 8: limb 0 matches, a higher limb does not. -/
theorem test_weqs_higher :
    (after (.weqs 1 [0#32]) (block p8 [(1, ⟨17, [0, 0, 1]⟩)])).map (·.eqFlag) = some false := by decide
/-- Section 7. -/
theorem test_whb : (after (.whb 1) (block p8 [(1, ⟨16, [255, 127]⟩)])).map (·.hbr) = some 15#16 := by decide
/-- Section 7: a padding bit counts. -/
theorem test_whb_dirty : (after (.whb 1) (block p8 [(1, ⟨7, [255]⟩)])).map (·.hbr) = some 8#16 := by decide
/-- S9. -/
theorem test_wget :
    (after (.wget 1) (block p8 [(1, ⟨16, [123, 238]⟩)])).map (·.out) = some [16#32, 123#32, 238#32] := by decide
/-- X14. -/
theorem test_wget_empty : (after (.wget 3) (block p8 [])).map (·.statusWord) = some 0x52#32 := by decide
/-- R250: `CFG` with `L = 32`, `NLIMB_MAX = 5`. -/
theorem test_sget_cfg : (after (.sget 2) (block p32 [])).map (·.out) = some [0x520#32] := by decide
/-- X8. -/
theorem test_sget_bad : (after (.sget 3) (block p8 [])).map (·.statusWord) = some 0x32#32 := by decide

/-! ## Witnesses: for every obligation with hypotheses, values that meet all of them -/

/-- Largest `NLIMB_MAX` of each limb width, and the smallest. -/
theorem witness_Legal : Params.Legal ⟨.w8, 8191⟩ ∧ Params.Legal ⟨.w16, 4095⟩ ∧ Params.Legal ⟨.w32, 2047⟩ ∧
    Params.Legal ⟨.w8, 1⟩ := by decide
theorem witness_DecodeOfEncode : (Instr.wrdx 3 64 2 [3#32, 63#32]).WellFormed 8 = true ∧
    (Instr.wset 15 65 [1#32, 2#32, 1#32]).WellFormed 32 = true := by decide
theorem witness_EncodeOfDecode :
    decode 8 [0xA0100000#32, 5#32, 0xD0000000#32] = .command (.weqs 1 [5#32]) ∧
    (Instr.weqs 1 [5#32]).WellFormed 8 = true := by decide
theorem witness_OpcodeMap : (Opcode.sget, 0xD0000000#32, 0xFFFF0000#32) ∈ opcodeMap := by decide

/-- A running block with a word on `CMD`. -/
def waiting (w : Word) : State := (block p8 []).hostSend [w]

theorem witness_EveryWord_illegal : (waiting 0xE0000000#32).rej = false ∧ (waiting 0xE0000000#32).cmd = [0xE0000000#32] ∧
    (0xE0000000#32).toNat / 2 ^ 28 = 14 := by decide
theorem witness_EveryWord_reserved : (waiting 0x45340001#32).rej = false ∧ (waiting 0x45340001#32).cmd = [0x45340001#32] ∧
    (Opcode.wadd, 0x40000000#32, 0xF000FFFF#32) ∈ opcodeMap ∧ (0x45340001#32).toNat / 2 ^ 28 = (0x40000000#32).toNat / 2 ^ 28 ∧
    0x45340001#32 &&& 0xF000FFFF#32 ≠ 0x40000000#32 := by decide
theorem witness_EveryWord_command : (waiting 0x45340000#32).rej = false ∧ (waiting 0x45340000#32).cmd = [0x45340000#32] ∧
    (Opcode.wadd, 0x40000000#32, 0xF000FFFF#32) ∈ opcodeMap ∧ 0x45340000#32 &&& 0xF000FFFF#32 = 0x40000000#32 := by decide
theorem witness_StepRuns : (waiting 0x45340000#32).rej = false ∧
    decode (waiting 0x45340000#32).params.L (waiting 0x45340000#32).cmd = .command (.wadd 5 3 4) := by decide
/-- The smallest and the largest width. -/
theorem witness_Wset : ∀ e ∈ [(1#16, [1]), (64#16, [1, 2, 3, 4, 5, 6, 7, 255])],
    1 ≤ e.1.toNat ∧ e.1.toNat ≤ (block p8 []).params.widthMax ∧ e.2.length = nl (block p8 []).params.L e.1.toNat ∧
    ∀ x ∈ e.2, x < 2 ^ (block p8 []).params.L := by decide

/-- Two values: a dirty one of width 7 and a clean one of the width with the extra limb. -/
def two : State := block p8 [(1, ⟨7, [255]⟩), (2, ⟨16, [3, 128]⟩)]

theorem witness_one_source : two.params.Legal ∧ two.reg 2 = some ⟨16, [3, 128]⟩ ∧ WideInt.Wf two.params ⟨16, [3, 128]⟩ := by
  decide
theorem witness_HighestBit : WideInt.Wf p8 ⟨9, [0, 1]⟩ ∧ val p8.L [0, 1] ≠ 0 ∧ WideInt.Clean p8.L ⟨9, [0, 1]⟩ ∧
    val p8.L [0, 1] = 2 ^ (9 - 1) := by decide
theorem witness_OneLimbSteps : 255 < 2 ^ LimbWidth.w8.bits ∧ 0 < 2 ^ LimbWidth.w8.bits ∧ 1 ≤ 1 := by decide
/-- The hypotheses of `WADD`, `WADDT`, `WSUB`, `WSUBT` and `WMUL`, the width sum within `WIDTH_MAX`. -/
theorem witness_two_sources : two.reg 1 = some ⟨7, [255]⟩ ∧ two.reg 2 = some ⟨16, [3, 128]⟩ ∧
    WideInt.Wf two.params ⟨7, [255]⟩ ∧ WideInt.Wf two.params ⟨16, [3, 128]⟩ ∧
    max 7 16 + 1 ≤ two.params.widthMax ∧ 7 + 16 ≤ two.params.widthMax := by decide
/-- The largest result width: `WIDTH_MAX` itself. -/
theorem witness_widest_result : WideInt.Wf p8 ⟨63, [1, 2, 3, 4, 5, 6, 7, 127]⟩ ∧ max 63 63 + 1 ≤ p8.widthMax ∧
    WideInt.Wf p8 ⟨32, [0, 0, 0, 255]⟩ ∧ 32 + 32 ≤ p8.widthMax := by decide
theorem witness_TopLimb_extra : WideInt.Wf p8 ⟨8, [3]⟩ ∧ WideInt.Wf p8 ⟨8, [5]⟩ ∧ max 8 8 % p8.L = 0 ∧
    val p8.L [3] < val p8.L [5] := by decide
theorem witness_TopLimb_none : WideInt.Wf p8 ⟨7, [3]⟩ ∧ WideInt.Wf p8 ⟨7, [127]⟩ ∧ max 7 7 % p8.L ≠ 0 ∧
    WideInt.Clean p8.L ⟨7, [3]⟩ ∧ WideInt.Clean p8.L ⟨7, [127]⟩ ∧ val p8.L [3] < val p8.L [127] := by decide
theorem witness_ValueLaws : WideInt.Wf p8 ⟨8, [200]⟩ ∧ WideInt.Wf p8 ⟨8, [55]⟩ ∧ WideInt.Clean p8.L ⟨8, [200]⟩ ∧
    WideInt.Clean p8.L ⟨8, [55]⟩ ∧ val p8.L [55] ≤ val p8.L [200] ∧
    val p8.L [200] + val p8.L [55] < 2 ^ (nl p8.L 8 * p8.L) := by decide
/-- Widths 8 and 7 give an extra limb with `L = 8`, widths 7 and 7 do not. -/
theorem witness_LimbCounts : 1 ≤ 8 ∧ 1 ≤ 7 ∧ max 8 7 % LimbWidth.w8.bits = 0 ∧ max 7 7 % LimbWidth.w8.bits ≠ 0 := by decide
theorem witness_MultiplierCell : 255 < 2 ^ LimbWidth.w8.bits ∧ 254 < 2 ^ LimbWidth.w8.bits := by decide
theorem witness_Weqs : two.reg 2 = some ⟨16, [3, 128]⟩ ∧ WideInt.Wf two.params ⟨16, [3, 128]⟩ ∧
    255 < 2 ^ two.params.L := by decide
theorem witness_NamedConstants : (NamedConst.ten, 10) ∈ [(NamedConst.zero, 0), (.one, 1), (.two, 2), (.three, 3), (.ten, 10)] := by
  decide
theorem witness_WidthEstimates : 2 ∉ [8, 10, 16, 64] := by decide
theorem witness_ConverterCells : 64 ∈ [8, 10, 16, 64] ∧ 255 < 2 ^ LimbWidth.w8.bits ∧ 63 ≤ 64 - 1 ∧ 63 ≤ 63 := by decide
theorem witness_Horner : 10 ∈ [8, 10, 16, 64] ∧ (∀ d ∈ [63, 0, 9], d < 64) ∧ 3 ≤ [63, 0, 9].length ∧
    (∀ x ∈ [255, 0], x < 2 ^ LimbWidth.w8.bits) := by decide
/-- Digits below the radix, and the empty sequence of radix 10. -/
theorem witness_Wrdx : two.params.Legal ∧ est (10#8).toNat (3#16).toNat = some 10 ∧ 1 ≤ 10 ∧ 10 ≤ two.params.widthMax ∧
    [2, 5, 5].length = (3#16).toNat ∧ (∀ d ∈ [2, 5, 5], d < 64) ∧ (∀ d ∈ [2, 5, 5], d < (10#8).toNat) ∧
    est (10#8).toNat (0#16).toNat = some 1 := by decide
/-- Digits at or above the radix, and the largest 6-bit digit (95_test_vectors.md section 9): they meet the hypotheses
without the premise of the exactness clause. -/
theorem witness_Wrdx_large_digits : two.params.Legal ∧ est (10#8).toNat (3#16).toNat = some 10 ∧ 1 ≤ 10 ∧
    10 ≤ two.params.widthMax ∧ [10, 15, 63].length = (3#16).toNat ∧ (∀ d ∈ [10, 15, 63], d < 64) ∧
    (∀ d ∈ [10, 15, 63], (10#8).toNat ≤ d) := by decide
/-- The largest digit count whose width fits `WIDTH_MAX = 64`. -/
theorem witness_ValidDigits : p8.Legal ∧ est 10 (List.replicate 18 9).length = some 60 ∧ 60 ≤ p8.widthMax ∧
    (∀ d ∈ List.replicate 18 9, d < 10) := by decide
theorem witness_Sget : two.params.Legal ∧ two.rej = false ∧ two.cause = 0#4 ∧ 2 < (3#16).toNat ∧ (2#16).toNat ≤ 2 := by decide
theorem witness_EmptySource : two.reg 0 = none ∧ two.reg 2 ≠ none := by decide
/-- Each clause of the illegal widths at its boundary. -/
theorem witness_IllegalWidth : (0#16).toNat = 0 ∧ two.params.widthMax < (65#16).toNat ∧
    est (64#8).toNat (0#16).toNat = some 0 ∧ est (64#8).toNat (11#16).toNat = some 66 ∧ two.params.widthMax < 66 ∧
    two.rej = false := by decide
theorem witness_IllegalWidth_sources :
    let s := block p8 [(1, ⟨64, [1, 2, 3, 4, 5, 6, 7, 8]⟩), (2, ⟨1, [1]⟩)]
    s.reg 1 = some ⟨64, [1, 2, 3, 4, 5, 6, 7, 8]⟩ ∧ s.reg 2 = some ⟨1, [1]⟩ ∧ s.params.widthMax < max 64 1 + 1 ∧
      s.params.widthMax < 64 + 1 := by decide
theorem witness_BadPayload_limb : (∃ x ∈ [256#32], 2 ^ two.params.L ≤ x.toNat) ∧ 1 ≤ (8#16).toNat ∧
    (8#16).toNat ≤ two.params.widthMax ∧ [256#32].length = nl two.params.L (8#16).toNat ∧ two.reg 1 ≠ none :=
  ⟨⟨256#32, by simp, by decide⟩, by decide, by decide, by decide, by decide⟩
theorem witness_BadPayload_digit : (∃ x ∈ [64#32], 64 ≤ x.toNat) ∧ est (64#8).toNat (1#16).toNat = some 6 ∧
    6 ≤ two.params.widthMax ∧ [64#32].length = (1#16).toNat :=
  ⟨⟨64#32, by simp, by decide⟩, by decide, by decide, by decide⟩
theorem witness_BadPayload_none : (block p32 []).params.limbW = .w32 ∧ (block p32 []).rej = false := by decide
theorem witness_IllegalField : 2 < (3#16).toNat ∧ (0#8).toNat ∉ [8, 10, 16, 64] := by decide
/-- X38: `WPRO` with no payload word meets no reject condition. -/
theorem witness_IncompletePayload : (waiting 0x20000000#32).rej = false ∧
    decode (waiting 0x20000000#32).params.L (waiting 0x20000000#32).cmd = .command (.wpro 0 []) ∧
    (Instr.wpro 0 []).WellFormed (waiting 0x20000000#32).params.L = false ∧
    ∀ c, c ≠ .badPayload → ¬ Meets (waiting 0x20000000#32) (.wpro 0 []) c := by
  refine ⟨by decide, by decide, by decide, fun c _ hm => ?_⟩
  cases c <;> simp [Meets, sourcesOf, createdWidth, Instr.opcode, payloadOf] at hm
/-- `WMUL W2, W1, W7` with `W7` empty meets `UNWRITTEN_REG` first (P4). -/
theorem witness_LowestCause : two.rej = false ∧ (Instr.wmul 2 1 7).WellFormed two.params.L = true ∧
    LowestMet two (.wmul 2 1 7) .unwrittenReg := by
  refine ⟨by decide, by decide, ⟨7, by simp [sourcesOf], by decide⟩, fun c hm => ?_⟩
  cases c <;> simp [Meets, Instr.opcode, causeCode] at hm ⊢
/-- `WADDT W3, W1, W2` meets no reject condition. -/
theorem witness_LowestCause_none : two.rej = false ∧ (Instr.waddt 3 1 2).WellFormed two.params.L = true ∧
    ∀ c, ¬ Meets two (.waddt 3 1 2) c := by
  refine ⟨by decide, by decide, fun c hm => ?_⟩
  have h1 : two.reg 1 ≠ none := by decide
  have h2 : two.reg 2 ≠ none := by decide
  cases c <;> simp [Meets, sourcesOf, createdWidth, Instr.opcode, payloadOf] at hm
  exact hm.elim h1 h2
theorem witness_RejectWrites : (waiting 0#32).rej = false ∧
    ∃ t, step (waiting 0#32) = .next t ∧ t.rej = true := ⟨by decide, _, rfl, by decide⟩
theorem witness_RejectedBlock : ((waiting 0#32).rejected .illegalOpcode).rej = true := by decide
/-- Two states that differ in a limb value, and two payload words that differ in data bits. -/
theorem witness_RejectIgnores :
    (block p8 [(1, ⟨7, [255]⟩)]).rej = false ∧ (block p8 [(1, ⟨7, [0]⟩)]).rej = false ∧
    SameShape (block p8 [(1, ⟨7, [255]⟩)]) (block p8 [(1, ⟨7, [0]⟩)]) ∧
    withoutMagnitudes 8 (.weqs 1 [3#32]) = withoutMagnitudes 8 (.weqs 1 [200#32]) := by
  refine ⟨by decide, by decide, ⟨by decide, by decide⟩, by decide⟩
theorem witness_CommandFrame : ∃ t, exec (.wadd 3 1 2) two = .next t ∧ destOf (.wadd 3 1 2) ≠ some 1 ∧
    (Instr.wadd 3 1 2).opcode ≠ .weq ∧ (Instr.wadd 3 1 2).opcode ≠ .weqs ∧ (Instr.wadd 3 1 2).opcode ≠ .whb ∧
    (Instr.wadd 3 1 2).opcode ≠ .wget ∧ (Instr.wadd 3 1 2).opcode ≠ .sget :=
  ⟨_, rfl, by decide, by decide, by decide, by decide, by decide, by decide⟩

/-- The block of `two` with `WADD W3, W1, W2` on `CMD`. -/
def ready : State := two.hostSend [0x43120000#32]

theorem witness_StepKeepsTheBounds : ready.Inv ∧ ∃ t, step ready = .next t ∧ t.reg 3 ≠ none :=
  ⟨by decide, _, rfl, by decide⟩
theorem witness_step_changes : ready.rej = false ∧
    ∃ t, step ready = .next t ∧ t.rej = false ∧ t ≠ ready ∧ t.reg 3 ≠ ready.reg 3 :=
  ⟨by decide, _, rfl, by decide, by decide, by decide⟩
/-- `WEQ W1, W1` sets the flag, `WHB W2` writes `HBR`. -/
theorem witness_OnlyNamed :
    (∃ t, step (two.hostSend [0x90110000#32]) = .next t ∧ t.eqFlag ≠ two.eqFlag) ∧
    (∃ t, step (two.hostSend [0xB0200000#32]) = .next t ∧ t.hbr ≠ two.hbr) :=
  ⟨⟨_, rfl, by decide⟩, ⟨_, rfl, by decide⟩⟩
end Sys2Proof.Tests
end

/-! SUPPORT. The family 10_state: reset, the control registers, the frame of every command and the bounds of R52. -/

namespace Sys2Proof.Machine

/-! ## Parameters, causes and limb counts -/

theorem limbWidth_bits_bounds (lw : LimbWidth) : 8 ≤ lw.bits ∧ lw.bits ≤ 32 := by
  cases lw <;> decide

theorem L_bounds (p : Params) : 8 ≤ p.L ∧ p.L ≤ 32 := limbWidth_bits_bounds p.limbW

theorem one_le_L (p : Params) : 1 ≤ p.L :=
  le_trans (by decide) (L_bounds p).1

/-- Legal parameters fit the fields of `CFG` (R41). -/
theorem nlimbMax_lt_of_legal {p : Params} (h : p.Legal) : p.nlimbMax < 2 ^ 16 := by
  have hle : p.nlimbMax ≤ p.nlimbMax * p.L := Nat.le_mul_of_pos_right _ (one_le_L p)
  have := h.2
  omega

theorem L_le_widthMax {p : Params} (h : p.Legal) : p.L ≤ p.widthMax :=
  Nat.le_mul_of_pos_left _ h.1

/-- The codes of R261: 1 to 8. -/
theorem causeCode_bounds (c : Cause) : 1 ≤ (causeCode c).toNat ∧ (causeCode c).toNat ≤ 8 := by
  cases c <;> decide

theorem causeCode_ne_zero (c : Cause) : causeCode c ≠ 0#4 := fun h => by
  simpa [h] using causeCode_bounds c

theorem nl_le_of_le_mul {L n w : Nat} (hL : 1 ≤ L) (h : w ≤ n * L) : nl L w ≤ n := by
  have hlt := (nl_bounds hL w).1
  by_contra hn
  have := Nat.mul_le_mul_right L (Nat.lt_of_not_le hn)
  rw [Nat.succ_mul] at this
  omega

theorem nl_self {L : Nat} (hL : 1 ≤ L) : nl L L = 1 := by
  have hle : nl L L ≤ 1 := nl_le_of_le_mul hL (by simp)
  have hge := (nl_bounds hL L).2
  interval_cases h : nl L L <;> omega

/-! ## Limbs stay below `2^L` and limb counts are those of the result width -/

theorem lo_lt (L x : Nat) : lo L x < 2 ^ L := Nat.mod_lt _ (by positivity)

/-- The carry out of a widened intermediate is one limb (R10). -/
theorem hi_wide_lt (L x : Nat) : hi L (wide L x) < 2 ^ L := by
  have hx : wide L x < 2 ^ (2 * L) := Nat.mod_lt _ (by positivity)
  exact Nat.div_lt_of_lt_mul (by rwa [← pow_add, ← two_mul])

theorem limbOfWord_lt (L : Nat) (w : Word) : limbOfWord L w < 2 ^ L := Nat.mod_lt _ (by positivity)

theorem addStep_limb_lt (L a b c : Nat) : (addStep L a b c).1 < 2 ^ L := Nat.mod_lt _ (by positivity)

theorem subStep_limb_lt (L a b c : Nat) : (subStep L a b c).1 < 2 ^ L := Nat.mod_lt _ (by positivity)

@[simp] theorem chainFrom_length (stp : Nat → Nat → Nat → Nat × Nat) (n : Nat) (as bs : List Nat) (c : Nat) :
    (chainFrom stp n as bs c).length = n := by
  induction n generalizing as bs c with
  | zero => rfl
  | succ n ih => simp [chainFrom, ih]

theorem chainFrom_limbs_lt {L : Nat} {stp : Nat → Nat → Nat → Nat × Nat} (h : ∀ a b c, (stp a b c).1 < 2 ^ L)
    (n : Nat) (as bs : List Nat) (c : Nat) : ∀ x ∈ chainFrom stp n as bs c, x < 2 ^ L := by
  induction n generalizing as bs c with
  | zero => simp [chainFrom]
  | succ n ih => exact List.forall_mem_cons.mpr ⟨h _ _ _, ih _ _ _⟩

@[simp] theorem mulRow_length (L b : Nat) (as rs : List Nat) (k : Nat) :
    (mulRow L b as rs k).length = rs.length := by
  fun_induction mulRow L b as rs k with
  | case1 => rfl
  | case2 => rfl
  | case3 => rfl
  | case4 a as r rs k c ih => simp [ih]

theorem mulRow_limbs_lt {L b : Nat} {as rs : List Nat} {k : Nat} (hr : ∀ x ∈ rs, x < 2 ^ L) (hk : k < 2 ^ L) :
    ∀ x ∈ mulRow L b as rs k, x < 2 ^ L := by
  fun_induction mulRow L b as rs k with
  | case1 => simp
  | case2 k r rs => exact List.forall_mem_cons.mpr ⟨hk, (List.forall_mem_cons.mp hr).2⟩
  | case3 => simp
  | case4 a as r rs k c ih =>
    exact List.forall_mem_cons.mpr ⟨lo_lt _ _, ih (List.forall_mem_cons.mp hr).2 (hi_wide_lt _ _)⟩

@[simp] theorem mulRows_length (L : Nat) (as bs rs : List Nat) : (mulRows L as bs rs).length = rs.length := by
  fun_induction mulRows L as bs rs with
  | case1 => rfl
  | case2 b bs rs hrow => simpa [hrow] using mulRow_length L b as rs 0
  | case3 b bs rs r rs' hrow ih => simpa [hrow, ih] using mulRow_length L b as rs 0

theorem mulRows_limbs_lt {L : Nat} {as bs rs : List Nat} (hr : ∀ x ∈ rs, x < 2 ^ L) :
    ∀ x ∈ mulRows L as bs rs, x < 2 ^ L := by
  fun_induction mulRows L as bs rs with
  | case1 => exact hr
  | case2 => simp
  | case3 b bs rs r rs' hrow ih =>
    have hcells := mulRow_limbs_lt (b := b) (as := as) hr (Nat.two_pow_pos L)
    rw [hrow, List.forall_mem_cons] at hcells
    exact List.forall_mem_cons.mpr ⟨hcells.1, ih hcells.2⟩

theorem replicate_zero_limbs_lt (L n : Nat) : ∀ x ∈ List.replicate n 0, x < 2 ^ L := fun x hx => by
  rw [List.eq_of_mem_replicate hx]
  positivity

@[simp] theorem mulStep_length (L radix : Nat) (acc : List Nat) (c : Nat) :
    (mulStep L radix acc c).length = acc.length := by
  induction acc generalizing c with
  | nil => rfl
  | cons x xs ih => simp [mulStep, ih]

theorem mulStep_limbs_lt (L radix : Nat) (acc : List Nat) (c : Nat) : ∀ x ∈ mulStep L radix acc c, x < 2 ^ L := by
  induction acc generalizing c with
  | nil => simp [mulStep]
  | cons x xs ih => exact List.forall_mem_cons.mpr ⟨lo_lt _ _, ih _⟩

@[simp] theorem addDigit_length (L : Nat) (acc : List Nat) (c : Nat) : (addDigit L acc c).length = acc.length := by
  induction acc generalizing c with
  | nil => rfl
  | cons x xs ih => simp [addDigit, ih]

theorem addDigit_limbs_lt (L : Nat) (acc : List Nat) (c : Nat) : ∀ x ∈ addDigit L acc c, x < 2 ^ L := by
  induction acc generalizing c with
  | nil => simp [addDigit]
  | cons x xs ih => exact List.forall_mem_cons.mpr ⟨lo_lt _ _, ih _⟩

theorem foldl_radixStep_length (L radix : Nat) (ds acc : List Nat) :
    (ds.foldl (radixStep L radix) acc).length = acc.length := by
  induction ds generalizing acc with
  | nil => rfl
  | cons d ds ih => simp [ih, radixStep]

theorem foldl_radixStep_limbs_lt {L radix : Nat} (ds : List Nat) {acc : List Nat} (h : ∀ x ∈ acc, x < 2 ^ L) :
    ∀ x ∈ ds.foldl (radixStep L radix) acc, x < 2 ^ L := by
  induction ds generalizing acc with
  | nil => exact h
  | cons d ds ih => exact ih (addDigit_limbs_lt _ _ _)

@[simp] theorem rdx_length (L radix nr : Nat) (ds : List Nat) : (rdx L radix nr ds).length = nr := by
  rw [rdx, foldl_radixStep_length, List.length_replicate]

theorem rdx_limbs_lt (L radix nr : Nat) (ds : List Nat) : ∀ x ∈ rdx L radix nr ds, x < 2 ^ L :=
  foldl_radixStep_limbs_lt ds (replicate_zero_limbs_lt L nr)

theorem topBit_le (n x : Nat) : topBit n x ≤ n := by
  induction n with
  | zero => simp [topBit]
  | succ n ih =>
    rw [topBit]
    split <;> omega

theorem topLimb_le (L : Nat) (xs : List Nat) : topLimb L xs ≤ xs.length * L := by
  induction xs with
  | nil => simp [topLimb]
  | cons x xs ih =>
    have hbit := topBit_le L x
    rw [topLimb, List.length_cons, Nat.succ_mul]
    split <;> omega

/-- R121 (d): the highest bit lies within the limbs. -/
theorem hb_le_limbs (L : Nat) (v : WideInt) : hb L v ≤ v.limbs.length * L := by
  simpa [hb] using topLimb_le L v.limbs.reverse

/-! ## Every value a command creates is well-formed -/

theorem hb_le_widthMax {p : Params} {v : WideInt} (h : v.Wf p) : hb p.L v ≤ p.widthMax := by
  obtain ⟨_, hle, hlen, _⟩ := h
  calc hb p.L v ≤ v.limbs.length * p.L := hb_le_limbs p.L v
    _ = nl p.L v.bw * p.L := by rw [hlen]
    _ ≤ p.nlimbMax * p.L := Nat.mul_le_mul_right _ (nl_le_of_le_mul (one_le_L p) hle)

theorem promote_wf {p : Params} (hp : p.Legal) {x : Nat} (hx : x < 2 ^ p.L) : (promote p.L x).Wf p :=
  ⟨one_le_L p, L_le_widthMax hp, (nl_self (one_le_L p)).symm, by simpa [promote] using hx⟩

theorem addAt_wf {p : Params} {w : Nat} (h1 : 1 ≤ w) (hw : w ≤ p.widthMax) (a b : WideInt) :
    (addAt p.L w a b).Wf p :=
  ⟨h1, hw, chainFrom_length .., chainFrom_limbs_lt (addStep_limb_lt p.L) _ _ _ _⟩

theorem subAt_wf {p : Params} {w : Nat} (h1 : 1 ≤ w) (hw : w ≤ p.widthMax) (a b : WideInt) :
    (subAt p.L w a b).Wf p :=
  ⟨h1, hw, chainFrom_length .., chainFrom_limbs_lt (subStep_limb_lt p.L) _ _ _ _⟩

theorem mulOf_wf {p : Params} {a b : WideInt} (h1 : 1 ≤ a.bw + b.bw) (hw : a.bw + b.bw ≤ p.widthMax) :
    (mulOf p.L a b).Wf p :=
  ⟨h1, hw, by simp [mulOf, mularr], mulRows_limbs_lt (replicate_zero_limbs_lt _ _)⟩

theorem rdx_wf {p : Params} {w : Nat} (h1 : 1 ≤ w) (hw : w ≤ p.widthMax) (radix : Nat) (ds : List Nat) :
    WideInt.Wf p ⟨w, rdx p.L radix (nl p.L w) ds⟩ :=
  ⟨h1, hw, rdx_length .., rdx_limbs_lt _ _ _ _⟩

theorem wset_value_wf {p : Params} {w : Nat} (h1 : 1 ≤ w) (hw : w ≤ p.widthMax) {ws : List Word}
    (hl : ws.length = nl p.L w) : WideInt.Wf p ⟨w, ws.map (limbOfWord p.L)⟩ :=
  ⟨h1, hw, by simpa using hl, List.forall_mem_map.mpr fun u _ => limbOfWord_lt p.L u⟩

/-! ## The bounds of R52 under each update of the state -/

theorem inv_rejected {s : State} (h : s.Inv) (c : Cause) : (s.rejected c).Inv := by
  obtain ⟨hp, hr, hh, _, _⟩ := h
  exact ⟨hp, hr, hh, by simp [causeCode_ne_zero], (causeCode_bounds c).2⟩

theorem inv_setReg {s : State} (h : s.Inv) (rd : RegNo) {v : WideInt} (hv : v.Wf s.params) : (s.setReg rd v).Inv := by
  obtain ⟨hp, hr, hrest⟩ := h
  refine ⟨hp, fun r u hu => ?_, hrest⟩
  rw [reg_setReg] at hu
  split at hu
  · cases hu
    exact hv
  · exact hr r u hu

theorem inv_setEq {s : State} (h : s.Inv) (b : Bool) : (s.setEq b).Inv := h

theorem inv_setHbr {s : State} (h : s.Inv) {v : Nat} (hv : v ≤ s.params.widthMax) : (s.setHbr v).Inv := by
  obtain ⟨hp, hr, _, hcause⟩ := h
  exact ⟨hp, hr, le_trans (Nat.mod_le v (2 ^ 16)) hv, hcause⟩

theorem inv_outWrite {s : State} (h : s.Inv) (ws : List Word) : (s.outWrite ws).Inv := h

theorem inv_consume {s : State} (h : s.Inv) (n : Nat) : (s.consume n).Inv := h

/-! ## The bounds of R52 under each shared operation -/

/-- The next state an operation answers, if it answers one, meets the bounds of R52. -/
def KeepsInv (r : Result) : Prop := ∀ t : State, r = .next t → t.Inv

theorem keepsInv_next {t : State} (h : t.Inv) : KeepsInv (.next t) := by
  rintro _ ⟨⟩
  exact h

theorem keepsInv_reject {s : State} (h : s.Inv) (c : Cause) : KeepsInv (reject s c) :=
  keepsInv_next (inv_rejected h c)

theorem keepsInv_withSource {s : State} (h : s.Inv) {r : RegNo} {k : WideInt → Result}
    (hk : ∀ v, v.Wf s.params → KeepsInv (k v)) : KeepsInv (withSource s r k) := by
  obtain ⟨_, e⟩ | ⟨v, hv, e⟩ := withSource_cases s r k <;> rw [e]
  · exact keepsInv_reject h _
  · exact hk v (h.2.1 r v hv)

theorem keepsInv_withSources {s : State} (h : s.Inv) {ra rb : RegNo} {k : WideInt → WideInt → Result}
    (hk : ∀ a b, a.Wf s.params → b.Wf s.params → KeepsInv (k a b)) : KeepsInv (withSources s ra rb k) :=
  keepsInv_withSource h fun a ha => keepsInv_withSource h fun b hb => hk a b ha hb

theorem keepsInv_checkNonzero {s : State} (h : s.Inv) {w : Nat} {k : Result} (hk : 1 ≤ w → KeepsInv k) :
    KeepsInv (checkNonzero s w k) := by
  obtain ⟨_, e⟩ | ⟨hw, e⟩ := checkNonzero_cases s w k <;> rw [e]
  · exact keepsInv_reject h _
  · exact hk hw

theorem keepsInv_checkFits {s : State} (h : s.Inv) {w : Nat} {k : Result}
    (hk : w ≤ s.params.widthMax → KeepsInv k) :
    KeepsInv (checkFits s w k) := by
  obtain ⟨_, e⟩ | ⟨hw, e⟩ := checkFits_cases s w k <;> rw [e]
  · exact keepsInv_reject h _
  · exact hk hw

theorem keepsInv_withPayload {s : State} (h : s.Inv) {n : Nat} {ok : Word → Bool} {ws : List Word}
    {k : List Word → Result} (hk : ∀ us : List Word, us.length = n → KeepsInv (k us)) :
    KeepsInv (withPayload s n ok ws k) := by
  obtain ⟨_, e⟩ | ⟨_, _, e⟩ | ⟨hn, _, e⟩ := withPayload_cases s n ok ws k <;> rw [e]
  · exact keepsInv_next h
  · exact keepsInv_reject h _
  · exact hk _ (List.length_take_of_le hn)

theorem keepsInv_finishReg {s : State} (h : s.Inv) {rd : RegNo} {v : WideInt} {n : Nat} (hv : v.Wf s.params) :
    KeepsInv (finishReg s rd v n) :=
  keepsInv_next (inv_consume (inv_setReg h rd hv) n)

theorem keepsInv_finishEq {s : State} (h : s.Inv) (b : Bool) (n : Nat) : KeepsInv (finishEq s b n) :=
  keepsInv_next (inv_consume (inv_setEq h b) n)

theorem keepsInv_finishHbr {s : State} (h : s.Inv) {v : Nat} (hv : v ≤ s.params.widthMax) :
    KeepsInv (finishHbr s v) :=
  keepsInv_next (inv_consume (inv_setHbr h hv) 0)

theorem keepsInv_finishOut {s : State} (h : s.Inv) (ws : List Word) : KeepsInv (finishOut s ws) :=
  keepsInv_next (inv_consume (inv_outWrite h ws) 0)

/-! ## The bounds of R52 under each command -/

theorem keepsInv_execWset {s : State} (h : s.Inv) (rd : RegNo) (width : BitVec 16) (ws : List Word) :
    KeepsInv (execWset rd width ws s) :=
  keepsInv_checkNonzero h fun h1 => keepsInv_checkFits h fun hw => keepsInv_withPayload h fun _ hl =>
    keepsInv_finishReg h (wset_value_wf h1 hw hl)

theorem keepsInv_execWpro {s : State} (h : s.Inv) (rd : RegNo) (ws : List Word) : KeepsInv (execWpro rd ws s) :=
  keepsInv_withPayload h fun _ _ => keepsInv_finishReg h (promote_wf h.1 (limbOfWord_lt _ _))

theorem keepsInv_execWrdx {s : State} (h : s.Inv) (rd : RegNo) (radix : BitVec 8) (n : BitVec 16) (ws : List Word) :
    KeepsInv (execWrdx rd radix n ws s) := by
  rw [execWrdx]
  cases est radix.toNat n.toNat with
  | none => exact keepsInv_reject h _
  | some w =>
    exact keepsInv_checkNonzero h fun h1 => keepsInv_checkFits h fun hw => keepsInv_withPayload h fun _ _ =>
      keepsInv_finishReg h (rdx_wf h1 hw _ _)

theorem keepsInv_execWadd {s : State} (h : s.Inv) (rd ra rb : RegNo) : KeepsInv (execWadd rd ra rb s) :=
  keepsInv_withSources h fun a b _ _ => keepsInv_checkFits h fun hw =>
    keepsInv_finishReg h (addAt_wf (Nat.le_add_left 1 _) hw a b)

theorem keepsInv_execWaddt {s : State} (h : s.Inv) (rd ra rb : RegNo) : KeepsInv (execWaddt rd ra rb s) :=
  keepsInv_withSources h fun a b ⟨ha1, haw, _⟩ ⟨_, hbw, _⟩ =>
    keepsInv_finishReg h (addAt_wf (le_max_of_le_left ha1) (max_le haw hbw) a b)

theorem keepsInv_execWsub {s : State} (h : s.Inv) (rd ra rb : RegNo) : KeepsInv (execWsub rd ra rb s) :=
  keepsInv_withSources h fun a b _ _ => keepsInv_checkFits h fun hw =>
    keepsInv_finishReg h (subAt_wf (Nat.le_add_left 1 _) hw a b)

theorem keepsInv_execWsubt {s : State} (h : s.Inv) (rd ra rb : RegNo) : KeepsInv (execWsubt rd ra rb s) :=
  keepsInv_withSources h fun a b ⟨ha1, haw, _⟩ ⟨_, hbw, _⟩ =>
    keepsInv_finishReg h (subAt_wf (le_max_of_le_left ha1) (max_le haw hbw) a b)

theorem keepsInv_execWmul {s : State} (h : s.Inv) (rd ra rb : RegNo) : KeepsInv (execWmul rd ra rb s) :=
  keepsInv_withSources h fun _ _ ⟨ha1, _⟩ _ => keepsInv_checkFits h fun hw =>
    keepsInv_finishReg h (mulOf_wf (Nat.le_add_right_of_le ha1) hw)

theorem keepsInv_execWeq {s : State} (h : s.Inv) (ra rb : RegNo) : KeepsInv (execWeq ra rb s) :=
  keepsInv_withSources h fun _ _ _ _ => keepsInv_finishEq h _ _

theorem keepsInv_execWeqs {s : State} (h : s.Inv) (ra : RegNo) (ws : List Word) : KeepsInv (execWeqs ra ws s) :=
  keepsInv_withSource h fun _ _ => keepsInv_withPayload h fun _ _ => keepsInv_finishEq h _ _

theorem keepsInv_execWhb {s : State} (h : s.Inv) (ra : RegNo) : KeepsInv (execWhb ra s) :=
  keepsInv_withSource h fun _ hv => keepsInv_finishHbr h (hb_le_widthMax hv)

theorem keepsInv_execWget {s : State} (h : s.Inv) (ra : RegNo) : KeepsInv (execWget ra s) :=
  keepsInv_withSource h fun _ _ => keepsInv_finishOut h _

theorem keepsInv_execSget {s : State} (h : s.Inv) (csr : BitVec 16) : KeepsInv (execSget csr s) := by
  rw [execSget]
  cases s.csr csr.toNat with
  | none => exact keepsInv_reject h _
  | some w => exact keepsInv_finishOut h _

theorem keepsInv_exec {s : State} (h : s.Inv) (i : Instr) : KeepsInv (exec i s) := by
  cases i with
  | wset rd width ws => exact keepsInv_execWset h rd width ws
  | wpro rd ws => exact keepsInv_execWpro h rd ws
  | wrdx rd radix n ws => exact keepsInv_execWrdx h rd radix n ws
  | wadd rd ra rb => exact keepsInv_execWadd h rd ra rb
  | waddt rd ra rb => exact keepsInv_execWaddt h rd ra rb
  | wsub rd ra rb => exact keepsInv_execWsub h rd ra rb
  | wsubt rd ra rb => exact keepsInv_execWsubt h rd ra rb
  | wmul rd ra rb => exact keepsInv_execWmul h rd ra rb
  | weq ra rb => exact keepsInv_execWeq h ra rb
  | weqs ra ws => exact keepsInv_execWeqs h ra ws
  | whb ra => exact keepsInv_execWhb h ra
  | wget ra => exact keepsInv_execWget h ra
  | sget csr => exact keepsInv_execSget h csr

/-- Settles O51: a step waits, rejects or executes a command, and each shared operation a command is made of keeps the
bounds, because every value it stores is well-formed and every bit length fits `WIDTH_MAX`. -/
theorem stepKeepsTheBounds : Obligations.StepKeepsTheBounds := by
  intro s t hs
  suffices hkeeps : KeepsInv (step s) from hkeeps t
  obtain ⟨_, e⟩ | ⟨_, _, e⟩ | ⟨_, c, _, e⟩ | ⟨_, i, _, e⟩ := step_cases s <;> rw [e]
  · exact keepsInv_next hs
  · exact keepsInv_next hs
  · exact keepsInv_next (inv_rejected hs c)
  · exact keepsInv_exec hs i

/-! ## What a completed write changes, field by field -/

theorem writes_params {i : Instr} {s u : State} (h : Writes i s u) : u.params = s.params := by
  obtain ⟨_, _, _, rfl⟩ | ⟨_, _, rfl⟩ | ⟨_, _, _, _, rfl⟩ | ⟨_, _, rfl⟩ := h <;> rfl

theorem writes_cmd {i : Instr} {s u : State} (h : Writes i s u) : u.cmd = s.cmd := by
  obtain ⟨_, _, _, rfl⟩ | ⟨_, _, rfl⟩ | ⟨_, _, _, _, rfl⟩ | ⟨_, _, rfl⟩ := h <;> rfl

/-- A register keeps its content, or the command names it as `rd` and leaves a value there. -/
theorem writes_reg {i : Instr} {s u : State} (h : Writes i s u) (r : RegNo) :
    u.reg r = s.reg r ∨ destOf i = some r ∧ u.reg r ≠ none := by
  obtain ⟨rd, v, hd, rfl⟩ | ⟨_, _, rfl⟩ | ⟨_, _, _, _, rfl⟩ | ⟨_, _, rfl⟩ := h
  · by_cases hr : r = rd
    · subst hr
      exact .inr ⟨hd, by simp⟩
    · exact .inl (reg_setReg_of_ne s v hr)
  · exact .inl rfl
  · exact .inl rfl
  · exact .inl rfl

theorem writes_eqFlag {i : Instr} {s u : State} (h : Writes i s u) :
    u.eqFlag = s.eqFlag ∨ i.opcode = .weq ∨ i.opcode = .weqs := by
  obtain ⟨_, _, _, rfl⟩ | ⟨ho, _⟩ | ⟨_, _, _, _, rfl⟩ | ⟨_, _, rfl⟩ := h
  · exact .inl rfl
  · exact .inr ho
  · exact .inl rfl
  · exact .inl rfl

theorem writes_hbr {i : Instr} {s u : State} (h : Writes i s u) : u.hbr = s.hbr ∨ i.opcode = .whb := by
  obtain ⟨_, _, _, rfl⟩ | ⟨_, _, rfl⟩ | ⟨ho, _⟩ | ⟨_, _, rfl⟩ := h
  · exact .inl rfl
  · exact .inl rfl
  · exact .inr ho
  · exact .inl rfl

/-- `OUT` keeps its words; only `WGET` and `SGET` put some behind them. -/
theorem writes_out {i : Instr} {s u : State} (h : Writes i s u) :
    u.out = s.out ∨ (i.opcode = .wget ∨ i.opcode = .sget) ∧ ∃ ws, u.out = s.out ++ ws := by
  obtain ⟨_, _, _, rfl⟩ | ⟨_, _, rfl⟩ | ⟨_, _, _, _, rfl⟩ | ⟨ho, ws, rfl⟩ := h
  · exact .inl rfl
  · exact .inl rfl
  · exact .inl rfl
  · exact .inr ⟨ho, ws, rfl⟩

/-! ## The frame of a command and of a step -/

/-- The next state of a command: the same state, the reject, or the one write with the command's words taken. -/
theorem exec_next {i : Instr} {s t : State} (h : exec i s = .next t) :
    t = s ∨ (∃ c, t = s.rejected c) ∨
    ∃ u, Writes i s u ∧ t = u.consume (payloadLength s.params.L i) := by
  obtain ⟨e, _⟩ | ⟨c, e⟩ | ⟨u, hu, e, _⟩ := exec_goes i s <;> rw [e] at h <;> cases h
  · exact .inl rfl
  · exact .inr (.inl ⟨c, rfl⟩)
  · exact .inr (.inr ⟨u, hu, rfl⟩)

theorem exec_params {i : Instr} {s t : State} (h : exec i s = .next t) : t.params = s.params := by
  obtain rfl | ⟨c, rfl⟩ | ⟨u, hu, rfl⟩ := exec_next h
  · rfl
  · rfl
  · simpa using writes_params hu

theorem exec_reg {i : Instr} {s t : State} (h : exec i s = .next t) (r : RegNo) :
    t.reg r = s.reg r ∨ destOf i = some r ∧ t.reg r ≠ none := by
  obtain rfl | ⟨c, rfl⟩ | ⟨u, hu, rfl⟩ := exec_next h
  · exact .inl rfl
  · exact .inl rfl
  · exact writes_reg hu r

theorem exec_eqFlag {i : Instr} {s t : State} (h : exec i s = .next t) :
    t.eqFlag = s.eqFlag ∨ i.opcode = .weq ∨ i.opcode = .weqs := by
  obtain rfl | ⟨c, rfl⟩ | ⟨u, hu, rfl⟩ := exec_next h
  · exact .inl rfl
  · exact .inl rfl
  · simpa using writes_eqFlag hu

theorem exec_hbr {i : Instr} {s t : State} (h : exec i s = .next t) : t.hbr = s.hbr ∨ i.opcode = .whb := by
  obtain rfl | ⟨c, rfl⟩ | ⟨u, hu, rfl⟩ := exec_next h
  · exact .inl rfl
  · exact .inl rfl
  · simpa using writes_hbr hu

theorem exec_out {i : Instr} {s t : State} (h : exec i s = .next t) :
    t.out = s.out ∨ (i.opcode = .wget ∨ i.opcode = .sget) ∧ ∃ ws, t.out = s.out ++ ws := by
  obtain rfl | ⟨c, rfl⟩ | ⟨u, hu, rfl⟩ := exec_next h
  · exact .inl rfl
  · exact .inl rfl
  · simpa using writes_out hu

theorem exec_cmd {i : Instr} {s t : State} (h : exec i s = .next t) :
    t.cmd = s.cmd ∨ t.cmd = s.cmd.drop (1 + payloadLength s.params.L i) := by
  obtain rfl | ⟨c, rfl⟩ | ⟨u, hu, rfl⟩ := exec_next h
  · exact .inl rfl
  · exact .inl rfl
  · exact .inr (by rw [consume_cmd, writes_cmd hu])

/-- Settles O49, field by field. -/
theorem commandFrame : Obligations.CommandFrame := by
  intro i s t h
  refine ⟨exec_params h, fun r hr => ?_, fun hweq hweqs => ?_, fun hwhb => ?_, fun hwget hsget => ?_, exec_cmd h⟩
  · exact (exec_reg h r).resolve_right fun hd => hr hd.1
  · exact (exec_eqFlag h).resolve_right (not_or.mpr ⟨hweq, hweqs⟩)
  · exact (exec_hbr h).resolve_right hwhb
  · exact (exec_out h).resolve_right fun ho => not_or.mpr ⟨hwget, hsget⟩ ho.1

/-- The next state of a step: the same state, a reject, or what the command on `CMD` answers. -/
theorem step_next {s t : State} (h : step s = .next t) :
    t = s ∨ (∃ c, t = s.rejected c) ∨
    ∃ i, decode s.params.L s.cmd = .command i ∧ exec i s = .next t := by
  obtain ⟨_, e⟩ | ⟨_, _, e⟩ | ⟨_, c, _, e⟩ | ⟨_, i, hd, e⟩ := step_cases s <;> rw [e] at h
  · exact .inl (by cases h; rfl)
  · exact .inl (by cases h; rfl)
  · exact .inr (.inl ⟨c, by cases h; rfl⟩)
  · exact .inr (.inr ⟨i, hd, h⟩)

/-- A step that changes a part of the state which no reject writes executes the command on `CMD`. -/
theorem exists_command_of_changed {α : Type} (f : State → α) (hf : ∀ s c, f (State.rejected s c) = f s)
    {s t : State} (h : step s = .next t) (hne : f t ≠ f s) :
    ∃ i, decode s.params.L s.cmd = .command i ∧ exec i s = .next t := by
  obtain rfl | ⟨c, rfl⟩ | hexec := step_next h
  · exact absurd rfl hne
  · exact absurd (hf s c) hne
  · exact hexec

/-- Settles O52: only `WGET` and `SGET` touch `OUT`, and they append. -/
theorem outputIsAppendOnly : Obligations.OutputIsAppendOnly := by
  intro s t h
  by_cases hout : t.out = s.out
  · exact ⟨[], by simp [hout]⟩
  · obtain ⟨i, _, hexec⟩ := exists_command_of_changed State.out rejected_out h hout
    exact ((exec_out hexec).resolve_left hout).2

/-- Settles O53: what changed executes the command on `CMD`, and that command's frame names it. -/
theorem onlyNamedCommandsWrite : Obligations.OnlyNamedCommandsWrite := by
  intro s t h
  refine ⟨fun hne => ?_, fun hne => ?_, fun r hne => ?_⟩
  · obtain ⟨i, hd, hexec⟩ := exists_command_of_changed State.eqFlag rejected_eqFlag h hne
    exact ⟨i, hd, (exec_eqFlag hexec).resolve_left hne⟩
  · obtain ⟨i, hd, hexec⟩ := exists_command_of_changed State.hbr rejected_hbr h hne
    exact ⟨i, hd, (exec_hbr hexec).resolve_left hne⟩
  · obtain ⟨i, hd, hexec⟩ :=
      exists_command_of_changed (fun u => u.reg r) (fun u c => rejected_reg u c r) h hne
    obtain ⟨hdest, hsome⟩ := (exec_reg hexec r).resolve_left hne
    exact ⟨hsome, i, hd, hdest⟩

/-! ## The words of the control registers -/

/-- A byte below a half word, as `CFG` packs its two fields (R41), is their sum by place value. -/
theorem packed_toNat (n : BitVec 16) (l : BitVec 8) :
    (n.setWidth 32 <<< 8 ||| l.setWidth 32).toNat = l.toNat + 256 * n.toNat := by
  have hor := Nat.shiftLeft_add_eq_or_of_lt l.isLt n.toNat
  have hshift : (n.setWidth 32 <<< 8).toNat = n.toNat <<< 8 := by
    simp only [BitVec.toNat_shiftLeft, BitVec.toNat_setWidth, Nat.shiftLeft_eq]
    omega
  rw [BitVec.toNat_or, hshift, BitVec.toNat_setWidth_of_le (by decide), ← hor, Nat.shiftLeft_eq]
  omega

/-- `CFG` as a number (R41, R49). -/
theorem cfgWord_toNat {s : State} (h : s.params.Legal) :
    s.cfgWord.toNat = s.params.L + 256 * s.params.nlimbMax := by
  have hL : s.params.L < 2 ^ 8 := (L_bounds s.params).2.trans_lt (by decide)
  rw [State.cfgWord, packed_toNat, BitVec.toNat_ofNat, BitVec.toNat_ofNat, Nat.mod_eq_of_lt hL,
    Nat.mod_eq_of_lt (nlimbMax_lt_of_legal h)]

theorem statusWord_layout (s : State) :
    s.statusWord.getLsbD 0 = s.eqFlag ∧ s.statusWord.getLsbD 1 = s.rej ∧ s.statusWord.extractLsb' 2 2 = 0#2 ∧
      s.statusWord.extractLsb' 4 4 = s.cause ∧ s.statusWord.extractLsb' 8 24 = 0#24 := by
  refine ⟨?_, ?_, ?_, ?_, ?_⟩
  · simp [State.statusWord]
  · simp [State.statusWord]
  · refine BitVec.eq_of_getLsbD_eq fun k hk => ?_
    interval_cases k <;> simp [State.statusWord]
  · refine BitVec.eq_of_getLsbD_eq fun k hk => ?_
    interval_cases k <;> simp [State.statusWord]
  · refine BitVec.eq_of_getLsbD_eq fun k hk => ?_
    interval_cases k <;> simp [State.statusWord]

theorem hbrWord_layout (s : State) : s.hbrWord.extractLsb' 0 16 = s.hbr ∧ s.hbrWord.extractLsb' 16 16 = 0#16 := by
  constructor
  · refine BitVec.eq_of_getLsbD_eq fun k hk => ?_
    have hk32 : k < 32 := by omega
    simp [State.hbrWord, hk, hk32]
  · refine BitVec.eq_of_getLsbD_eq fun k hk => ?_
    simp [State.hbrWord]

theorem cfgWord_layout {s : State} (h : s.params.Legal) :
    (s.cfgWord.extractLsb' 0 8).toNat = s.params.L ∧ (s.cfgWord.extractLsb' 8 16).toNat = s.params.nlimbMax ∧
      s.cfgWord.extractLsb' 24 8 = 0#8 := by
  have hn := nlimbMax_lt_of_legal h
  have hL := (L_bounds s.params).2
  rw [← BitVec.toNat_inj]
  simp only [BitVec.extractLsb'_toNat, cfgWord_toNat h, Nat.shiftRight_eq_div_pow, BitVec.toNat_ofNat]
  refine ⟨?_, ?_, ?_⟩ <;> omega

/-- Settles O39, word by word. -/
theorem controlRegisterLayout : Obligations.ControlRegisterLayout :=
  fun s => ⟨statusWord_layout s, hbrWord_layout s, cfgWord_layout⟩

/-! ## Reset -/

@[simp] theorem resetWith_reg (p : Params) (r : RegNo) : (State.resetWith p).reg r = none := by
  simp [State.reg]

/-- A running block with no word on `CMD` waits (R50). -/
theorem step_of_cmd_nil {s : State} (hr : s.rej = false) (hc : s.cmd = []) : step s = .next s := by
  simp [step, hr, hc, decode]

/-- Settles O1. -/
theorem resetClearsControlRegisters : Obligations.ResetClearsControlRegisters := by
  intro p hp
  exact ⟨by simp [State.statusWord], rfl, rfl, rfl, by simp [State.hbrWord],
    cfgWord_toNat (s := State.resetWith p) hp⟩

/-- Settles O2. -/
theorem hostResetLeavesTheResetState : Obligations.HostResetLeavesTheResetState := by
  intro s
  exact ⟨resetWith_reg s.params, rfl, rfl, rfl, rfl, rfl, rfl, rfl, step_of_cmd_nil rfl rfl⟩

/-- Settles O50: the reset state holds no value, so there is nothing to bound but the parameters. -/
theorem resetMeetsTheBounds : Obligations.ResetMeetsTheBounds := by
  intro p hp
  refine ⟨hp, fun r v hv => ?_, Nat.zero_le _, by simp, by simp⟩
  simp at hv

end Sys2Proof.Machine

/-! SUPPORT. The family 20_memory: a step that does anything does not see the words behind its command (R70, R297).
A meaning is run side by side on a state and on the same state with more words on `CMD`. -/

namespace Sys2Proof.Machine

/-! ## What the decoder makes of the words behind the command word -/

/-- The command word alone says whether it is rejected or which command it is; the words behind it only fill the
payload. -/
theorem decode_cons_cases (L : Nat) (w : Word) :
    (∃ c, ∀ rest, decode L (w :: rest) = .reject c) ∨
    ∃ op, ∀ rest, decode L (w :: rest) = .command (operandsOf L op w rest) := by
  cases hop : opcodeOfNibble (opField w) with
  | none => exact .inl ⟨.illegalOpcode, fun rest => by simp [decode, hop]⟩
  | some op =>
    by_cases hm : w &&& maskOf op = matchOf op
    · exact .inr ⟨op, fun rest => by simp [decode, hop, hm]⟩
    · exact .inl ⟨.reservedNonzero, fun rest => by simp [decode, hop, hm]⟩

theorem step_of_decode_reject {s : State} {ws : List Word} {c : Cause} (hr : s.rej = false) (hc : s.cmd = ws)
    (hd : decode s.params.L ws = .reject c) : step s = reject s c := by
  simp [step, hr, hc, hd]

theorem step_of_decode_command {s : State} {ws : List Word} {i : Instr} (hr : s.rej = false) (hc : s.cmd = ws)
    (hd : decode s.params.L ws = .command i) : step s = exec i s := by
  simp [step, hr, hc, hd]

/-! ## The same answer with and without further words, under each shared operation -/

/-- `r` is an answer on `s` and `r'` one on `s` with `ws` behind its words: either `r` is a wait, or `r'` is the next
state of `r` with `ws` behind its words. -/
def BlindTo (ws : List Word) (s : State) (r r' : Result) : Prop :=
  r = .next s ∨ ∃ t : State, r = .next t ∧ r' = .next (t.hostSend ws)

theorem blindTo_reject (ws : List Word) (s : State) (c : Cause) :
    BlindTo ws s (reject s c) (reject (s.hostSend ws) c) := .inr ⟨_, rfl, rfl⟩

theorem consume_hostSend {u : State} {w : Word} {rest : List Word} {n : Nat} (hc : u.cmd = w :: rest)
    (hn : n ≤ rest.length) (ws : List Word) : (u.hostSend ws).consume n = (u.consume n).hostSend ws := by
  have hlen : 1 + n ≤ u.cmd.length := by simp [hc]; omega
  simp [State.hostSend, State.consume, List.drop_append_of_le_length hlen]

/-- Every completed command ends like this: after its one write, its words are there to be taken, so the same ones are
taken whatever follows them. -/
theorem blindTo_consume {s u : State} {w : Word} {rest ws : List Word} {n : Nat} (hc : u.cmd = w :: rest)
    (hn : n ≤ rest.length) : BlindTo ws s (.next (u.consume n)) (.next ((u.hostSend ws).consume n)) :=
  .inr ⟨_, rfl, congrArg _ (consume_hostSend hc hn ws)⟩

theorem blindTo_withSource {ws : List Word} {s : State} {r : RegNo} {k k' : WideInt → Result}
    (h : ∀ v, BlindTo ws s (k v) (k' v)) :
    BlindTo ws s (withSource s r k) (withSource (s.hostSend ws) r k') := by
  cases hv : s.reg r with
  | none =>
    rw [withSource_none hv, withSource_none (s := s.hostSend ws) hv]
    exact blindTo_reject ws s _
  | some v =>
    rw [withSource_some hv, withSource_some (s := s.hostSend ws) hv]
    exact h v

theorem blindTo_withSources {ws : List Word} {s : State} {ra rb : RegNo} {k k' : WideInt → WideInt → Result}
    (h : ∀ a b, BlindTo ws s (k a b) (k' a b)) :
    BlindTo ws s (withSources s ra rb k) (withSources (s.hostSend ws) ra rb k') :=
  blindTo_withSource fun a => blindTo_withSource fun b => h a b

theorem blindTo_checkNonzero {ws : List Word} {s : State} {w : Nat} {k k' : Result} (h : BlindTo ws s k k') :
    BlindTo ws s (checkNonzero s w k) (checkNonzero (s.hostSend ws) w k') := by
  obtain rfl | hw := Nat.eq_zero_or_pos w
  · exact blindTo_reject ws s _
  · rwa [checkNonzero_pos hw, checkNonzero_pos hw]

theorem blindTo_checkFits {ws : List Word} {s : State} {w : Nat} {k k' : Result} (h : BlindTo ws s k k') :
    BlindTo ws s (checkFits s w k) (checkFits (s.hostSend ws) w k') := by
  obtain hw | hw := Nat.lt_or_ge s.params.widthMax w
  · rw [checkFits_gt hw, checkFits_gt (s := s.hostSend ws) hw]
    exact blindTo_reject ws s _
  · rwa [checkFits_le hw, checkFits_le (s := s.hostSend ws) hw]

/-- The only place where words behind the command word are read: with too few of them the block waits, and a complete
payload is the same list whatever follows it. -/
theorem blindTo_withPayload {ws : List Word} {s : State} {n : Nat} {ok : Word → Bool} {rest : List Word}
    {k k' : List Word → Result} (h : n ≤ rest.length → ∀ us, BlindTo ws s (k us) (k' us)) :
    BlindTo ws s (withPayload s n ok (rest.take n) k)
      (withPayload (s.hostSend ws) n ok ((rest ++ ws).take n) k') := by
  obtain hn | hn := Nat.lt_or_ge rest.length n
  · exact .inl (withPayload_short (by simp [hn]) ok k)
  · have hfull : (rest.take n).length = n := List.length_take_of_le hn
    rw [List.take_append_of_le_length hn, withPayload_full hfull, withPayload_full hfull]
    split
    · exact h hn _
    · exact blindTo_reject ws s _

/-! ## The same answer under each command -/

section
variable {s : State} {w : Word} {rest : List Word} (hc : s.cmd = w :: rest) (ws : List Word)
include hc

theorem blindTo_execWset (rd : RegNo) (width : BitVec 16) :
    BlindTo ws s (execWset rd width (rest.take (nl s.params.L width.toNat)) s)
      (execWset rd width ((rest ++ ws).take (nl s.params.L width.toNat)) (s.hostSend ws)) :=
  blindTo_checkNonzero <| blindTo_checkFits <| blindTo_withPayload fun hn _ => blindTo_consume hc hn

theorem blindTo_execWpro (rd : RegNo) :
    BlindTo ws s (execWpro rd (rest.take 1) s) (execWpro rd ((rest ++ ws).take 1) (s.hostSend ws)) :=
  blindTo_withPayload fun hn _ => blindTo_consume hc hn

theorem blindTo_execWrdx (rd : RegNo) (radix : BitVec 8) (n : BitVec 16) :
    BlindTo ws s (execWrdx rd radix n (rest.take n.toNat) s)
      (execWrdx rd radix n ((rest ++ ws).take n.toNat) (s.hostSend ws)) := by
  rw [execWrdx, execWrdx]
  cases est radix.toNat n.toNat with
  | none => exact blindTo_reject ws s _
  | some width =>
    exact blindTo_checkNonzero <| blindTo_checkFits <| blindTo_withPayload fun hn _ => blindTo_consume hc hn

theorem blindTo_execWadd (rd ra rb : RegNo) :
    BlindTo ws s (execWadd rd ra rb s) (execWadd rd ra rb (s.hostSend ws)) :=
  blindTo_withSources fun _ _ => blindTo_checkFits <| blindTo_consume hc (Nat.zero_le _)

theorem blindTo_execWaddt (rd ra rb : RegNo) :
    BlindTo ws s (execWaddt rd ra rb s) (execWaddt rd ra rb (s.hostSend ws)) :=
  blindTo_withSources fun _ _ => blindTo_consume hc (Nat.zero_le _)

theorem blindTo_execWsub (rd ra rb : RegNo) :
    BlindTo ws s (execWsub rd ra rb s) (execWsub rd ra rb (s.hostSend ws)) :=
  blindTo_withSources fun _ _ => blindTo_checkFits <| blindTo_consume hc (Nat.zero_le _)

theorem blindTo_execWsubt (rd ra rb : RegNo) :
    BlindTo ws s (execWsubt rd ra rb s) (execWsubt rd ra rb (s.hostSend ws)) :=
  blindTo_withSources fun _ _ => blindTo_consume hc (Nat.zero_le _)

theorem blindTo_execWmul (rd ra rb : RegNo) :
    BlindTo ws s (execWmul rd ra rb s) (execWmul rd ra rb (s.hostSend ws)) :=
  blindTo_withSources fun _ _ => blindTo_checkFits <| blindTo_consume hc (Nat.zero_le _)

theorem blindTo_execWeq (ra rb : RegNo) : BlindTo ws s (execWeq ra rb s) (execWeq ra rb (s.hostSend ws)) :=
  blindTo_withSources fun _ _ => blindTo_consume hc (Nat.zero_le _)

theorem blindTo_execWeqs (ra : RegNo) :
    BlindTo ws s (execWeqs ra (rest.take 1) s) (execWeqs ra ((rest ++ ws).take 1) (s.hostSend ws)) :=
  blindTo_withSource fun _ => blindTo_withPayload fun hn _ => blindTo_consume hc hn

theorem blindTo_execWhb (ra : RegNo) : BlindTo ws s (execWhb ra s) (execWhb ra (s.hostSend ws)) :=
  blindTo_withSource fun _ => blindTo_consume hc (Nat.zero_le _)

theorem blindTo_execWget (ra : RegNo) : BlindTo ws s (execWget ra s) (execWget ra (s.hostSend ws)) :=
  blindTo_withSource fun _ => blindTo_consume hc (Nat.zero_le _)

theorem blindTo_execSget (csr : BitVec 16) : BlindTo ws s (execSget csr s) (execSget csr (s.hostSend ws)) := by
  have hcsr : (s.hostSend ws).csr csr.toNat = s.csr csr.toNat := rfl
  rw [execSget, execSget, hcsr]
  cases s.csr csr.toNat with
  | none => exact blindTo_reject ws s _
  | some v => exact blindTo_consume hc (Nat.zero_le _)

/-- The command read from `w :: rest` answers as the one read from `w :: rest ++ ws`, or it waits. -/
theorem blindTo_exec_operandsOf (op : Opcode) :
    BlindTo ws s (exec (operandsOf s.params.L op w rest) s)
      (exec (operandsOf s.params.L op w (rest ++ ws)) (s.hostSend ws)) := by
  cases op with
  | wset => exact blindTo_execWset hc ws _ _
  | wpro => exact blindTo_execWpro hc ws _
  | wrdx => exact blindTo_execWrdx hc ws _ _ _
  | wadd => exact blindTo_execWadd hc ws _ _ _
  | waddt => exact blindTo_execWaddt hc ws _ _ _
  | wsub => exact blindTo_execWsub hc ws _ _ _
  | wsubt => exact blindTo_execWsubt hc ws _ _ _
  | wmul => exact blindTo_execWmul hc ws _ _ _
  | weq => exact blindTo_execWeq hc ws _ _
  | weqs => exact blindTo_execWeqs hc ws _
  | whb => exact blindTo_execWhb hc ws _
  | wget => exact blindTo_execWget hc ws _
  | sget => exact blindTo_execSget hc ws _

end

/-! ## The same answer of a step -/

/-- A step waits, or more words on `CMD` are more words in its answer. -/
theorem blindTo_step (s : State) (ws : List Word) : BlindTo ws s (step s) (step (s.hostSend ws)) := by
  cases hr : s.rej with
  | true => exact .inl (by simp [step, hr])
  | false =>
    cases hc : s.cmd with
    | nil => exact .inl (step_of_cmd_nil hr hc)
    | cons w rest =>
      have hc' : (s.hostSend ws).cmd = w :: (rest ++ ws) := by simp [hc]
      obtain ⟨c, hd⟩ | ⟨op, hd⟩ := decode_cons_cases s.params.L w
      · rw [step_of_decode_reject hr hc (hd rest),
          step_of_decode_reject (s := s.hostSend ws) hr hc' (hd (rest ++ ws))]
        exact blindTo_reject ws s c
      · rw [step_of_decode_command hr hc (hd rest),
          step_of_decode_command (s := s.hostSend ws) hr hc' (hd (rest ++ ws))]
        exact blindTo_exec_operandsOf hc ws op

/-- Settles O56: a step that changes the state is no wait, so further words on `CMD` are only carried along. -/
theorem laterWordsAreNotSeen : Obligations.LaterWordsAreNotSeen := by
  intro s t ws h hne
  obtain hwait | ⟨t', ht', e⟩ := blindTo_step s ws
  · cases h.symm.trans hwait
    exact absurd rfl hne
  · cases h.symm.trans ht'
    exact e

end Sys2Proof.Machine

/-! SUPPORT. The family 30_encoding: the opcode map, the two directions of the round trip between commands and words,
and the words a completed command takes from `CMD`. -/

namespace Sys2Proof.Machine

/-! ## Match and mask -/

/-- A field whose bits the mask all selects has the value the match gives it. -/
theorem field_of_match {w mask mtch : Word} {start len : Nat} (h : w &&& mask = mtch)
    (hmask : mask.extractLsb' start len = BitVec.allOnes len) :
    w.extractLsb' start len = mtch.extractLsb' start len := by
  rw [← h, BitVec.extractLsb'_and, hmask, BitVec.and_allOnes]

/-- Every row of R83 fixes the whole opcode nibble, so the word that meets it has that row's opcode. -/
theorem opcodeOfNibble_of_match {w : Word} {op : Opcode} (h : w &&& maskOf op = matchOf op) :
    opcodeOfNibble (opField w) = some op := by
  have hmask : opField (maskOf op) = BitVec.allOnes 4 := by cases op <;> rfl
  have hop : opField w = opField (matchOf op) := field_of_match h hmask
  rw [hop]
  cases op <;> rfl

@[simp] theorem operandsOf_opcode (L : Nat) (op : Opcode) (w : Word) (rest : List Word) :
    (operandsOf L op w rest).opcode = op := by
  cases op <;> rfl

/-- What the decoder reads from a word and those behind it: exactly the commands whose row the word meets, with the
operands of that row's format. -/
theorem decode_cons_eq_command_iff {L : Nat} {w : Word} {rest : List Word} {i : Instr} :
    decode L (w :: rest) = .command i ↔
      w &&& maskOf i.opcode = matchOf i.opcode ∧ operandsOf L i.opcode w rest = i := by
  constructor
  · intro h
    simp only [decode] at h
    split at h
    · cases h
    · split at h
      · cases h
        simpa
      · cases h
  · rintro ⟨hmatch, hi⟩
    simp [decode, opcodeOfNibble_of_match hmatch, hmatch, hi]

/-- The table of the statements and the decoder's own two columns agree. -/
theorem opcodeMap_row {row : Opcode × Word × Word} (h : row ∈ opcodeMap) :
    row.2.1 = matchOf row.1 ∧ row.2.2 = maskOf row.1 := by
  revert row
  decide

/-- Settles O6: the row's command is the one whose operands are read from the word. -/
theorem opcodeMapIsMatchAndMask : Obligations.OpcodeMapIsMatchAndMask := by
  intro row hrow L w rest
  obtain ⟨hmatch, hmask⟩ := opcodeMap_row hrow
  rw [hmatch, hmask]
  constructor
  · rintro ⟨i, hop, hd⟩
    rw [← hop]
    exact (decode_cons_eq_command_iff.mp hd).1
  · intro h
    exact ⟨operandsOf L row.1 w rest, by simp, decode_cons_eq_command_iff.mpr (by simpa using h)⟩

/-! ## The fields of a packed word -/

section
variable (op : BitVec 4) (rd ra rb : RegNo) (radix : BitVec 8) (imm : BitVec 16)

@[simp] theorem rdField_packWord : rdField (packWord op rd ra rb imm) = rd := by
  refine BitVec.eq_of_getLsbD_eq fun k hk => ?_
  interval_cases k <;> simp [rdField, packWord]

@[simp] theorem raField_packWord : raField (packWord op rd ra rb imm) = ra := by
  refine BitVec.eq_of_getLsbD_eq fun k hk => ?_
  interval_cases k <;> simp [raField, packWord]

@[simp] theorem rbField_packWord : rbField (packWord op rd ra rb imm) = rb := by
  refine BitVec.eq_of_getLsbD_eq fun k hk => ?_
  interval_cases k <;> simp [rbField, packWord]

@[simp] theorem immField_packWord : immField (packWord op rd ra rb imm) = imm := by
  refine BitVec.eq_of_getLsbD_eq fun k hk => ?_
  interval_cases k <;> simp [immField, packWord]

@[simp] theorem rdField_packRadixWord : rdField (packRadixWord op rd radix imm) = rd := by
  refine BitVec.eq_of_getLsbD_eq fun k hk => ?_
  interval_cases k <;> simp [rdField, packRadixWord]

@[simp] theorem radixField_packRadixWord : radixField (packRadixWord op rd radix imm) = radix := by
  refine BitVec.eq_of_getLsbD_eq fun k hk => ?_
  interval_cases k <;> simp [radixField, packRadixWord]

@[simp] theorem immField_packRadixWord : immField (packRadixWord op rd radix imm) = imm := by
  refine BitVec.eq_of_getLsbD_eq fun k hk => ?_
  interval_cases k <;> simp [immField, packRadixWord]

variable {op rd ra rb radix imm}

/-- The five fields of R81 cover the word. -/
theorem packWord_of_fields {w : Word} (hop : opField w = op) (hrd : rdField w = rd) (hra : raField w = ra)
    (hrb : rbField w = rb) (himm : immField w = imm) : packWord op rd ra rb imm = w := by
  subst hop hrd hra hrb himm
  refine BitVec.eq_of_getLsbD_eq fun k hk => ?_
  interval_cases k <;> simp [packWord, opField, rdField, raField, rbField, immField]

/-- The four fields of format X cover the word. -/
theorem packRadixWord_of_fields {w : Word} (hop : opField w = op) (hrd : rdField w = rd)
    (hradix : radixField w = radix) (himm : immField w = imm) : packRadixWord op rd radix imm = w := by
  subst hop hrd hradix himm
  refine BitVec.eq_of_getLsbD_eq fun k hk => ?_
  interval_cases k <;> simp [packRadixWord, opField, rdField, radixField, immField]

end

/-! ## From a command to its words and back -/

/-- The command word the encoder writes meets its row of the opcode map, for every command. -/
theorem headWord_matches (i : Instr) : headWord i &&& maskOf i.opcode = matchOf i.opcode := by
  cases i with
  | wset rd width ws => exact Laws.HeadMatches.wset rd width ws
  | wpro rd ws => exact Laws.HeadMatches.wpro rd ws
  | wrdx rd radix n ws => exact Laws.HeadMatches.wrdx rd radix n ws
  | wadd rd ra rb => exact Laws.HeadMatches.wadd rd ra rb
  | waddt rd ra rb => exact Laws.HeadMatches.waddt rd ra rb
  | wsub rd ra rb => exact Laws.HeadMatches.wsub rd ra rb
  | wsubt rd ra rb => exact Laws.HeadMatches.wsubt rd ra rb
  | wmul rd ra rb => exact Laws.HeadMatches.wmul rd ra rb
  | weq ra rb => exact Laws.HeadMatches.weq ra rb
  | weqs ra ws => exact Laws.HeadMatches.weqs ra ws
  | whb ra => exact Laws.HeadMatches.whb ra
  | wget ra => exact Laws.HeadMatches.wget ra
  | sget csr => exact Laws.HeadMatches.sget csr

theorem wellFormed_iff {L : Nat} {i : Instr} :
    i.WellFormed L = true ↔ (payloadOf i).length = payloadLength L i := by
  simp [Instr.WellFormed]

/-- The operands of a complete command are read back from its command word and its payload, whatever follows. -/
theorem operandsOf_headWord {L : Nat} {i : Instr} (h : (payloadOf i).length = payloadLength L i)
    (rest : List Word) : operandsOf L i.opcode (headWord i) (payloadOf i ++ rest) = i := by
  have htake : (payloadOf i ++ rest).take (payloadLength L i) = payloadOf i := List.take_left' h
  cases i with
  | wset rd width ws => simpa [operandsOf, Instr.opcode, headWord, payloadOf, payloadLength] using htake
  | wpro rd ws => simpa [operandsOf, Instr.opcode, headWord, payloadOf, payloadLength] using htake
  | wrdx rd radix n ws => simpa [operandsOf, Instr.opcode, headWord, payloadOf, payloadLength] using htake
  | weqs ra ws => simpa [operandsOf, Instr.opcode, headWord, payloadOf, payloadLength] using htake
  | _ => simp [operandsOf, Instr.opcode, headWord]

theorem decode_encode {L : Nat} {i : Instr} (h : i.WellFormed L = true) (rest : List Word) :
    decode L (encode i ++ rest) = .command i :=
  decode_cons_eq_command_iff.mpr ⟨headWord_matches i, operandsOf_headWord (wellFormed_iff.mp h) rest⟩

/-- Settles O4: the encoder's command word meets its row, and its fields and payload are the operands. -/
theorem decodeOfEncode : Obligations.DecodeOfEncode := fun _ _ rest h => decode_encode h rest

/-! ## From the words of a stream to the command and back -/

/-- A word that meets its row is the command word of the command read from it: the fields the command does not carry
are fixed by the row. -/
theorem headWord_operandsOf {L : Nat} {op : Opcode} {w : Word} (h : w &&& maskOf op = matchOf op)
    (rest : List Word) : headWord (operandsOf L op w rest) = w := by
  cases op with
  | wset => exact packWord_of_fields (field_of_match h rfl) rfl (field_of_match h rfl) (field_of_match h rfl) rfl
  | wpro =>
    exact packWord_of_fields (field_of_match h rfl) rfl (field_of_match h rfl) (field_of_match h rfl)
      (field_of_match h rfl)
  | wrdx => exact packRadixWord_of_fields (field_of_match h rfl) rfl rfl rfl
  | wadd | waddt | wsub | wsubt | wmul =>
    exact packWord_of_fields (field_of_match h rfl) rfl rfl rfl (field_of_match h rfl)
  | weq => exact packWord_of_fields (field_of_match h rfl) (field_of_match h rfl) rfl rfl (field_of_match h rfl)
  | weqs | whb | wget =>
    exact packWord_of_fields (field_of_match h rfl) (field_of_match h rfl) rfl (field_of_match h rfl)
      (field_of_match h rfl)
  | sget =>
    exact packWord_of_fields (field_of_match h rfl) (field_of_match h rfl) (field_of_match h rfl)
      (field_of_match h rfl) rfl

/-- The payload read is as much of the words behind the command word as the command takes. -/
theorem payloadOf_operandsOf (L : Nat) (op : Opcode) (w : Word) (rest : List Word) :
    payloadOf (operandsOf L op w rest) = rest.take (payloadLength L (operandsOf L op w rest)) := by
  cases op <;> rfl

/-- A stream that decodes to a command begins with the command's own word, and its payload is what has arrived of
it. -/
theorem decode_eq_command {L : Nat} {ws : List Word} {i : Instr} (h : decode L ws = .command i) :
    ∃ rest, ws = headWord i :: rest ∧ payloadOf i = rest.take (payloadLength L i) := by
  cases ws with
  | nil => cases h
  | cons w rest =>
    obtain ⟨hmatch, hi⟩ := decode_cons_eq_command_iff.mp h
    refine ⟨rest, ?_, ?_⟩
    · rw [← hi, headWord_operandsOf hmatch]
    · simpa [hi] using payloadOf_operandsOf L i.opcode w rest

/-- A command with the words behind it is the stream it was read from, even while its payload is still arriving. -/
theorem encode_append_drop {L : Nat} {ws : List Word} {i : Instr} (h : decode L ws = .command i) :
    encode i ++ ws.drop (1 + payloadLength L i) = ws := by
  obtain ⟨rest, rfl, hpay⟩ := decode_eq_command h
  rw [encode, hpay, Nat.add_comm, List.drop_succ_cons, List.cons_append, List.take_append_drop]

/-- Settles O5: of a complete command in particular, `encode_append_drop` needs no completeness. -/
theorem encodeOfDecode : Obligations.EncodeOfDecode := fun _ _ _ h _ => encode_append_drop h

/-! ## The words a step takes -/

/-- Settles O8, by the equation of a step of a running block. -/
theorem stepRunsTheDecodedCommand : Obligations.StepRunsTheDecodedCommand :=
  fun _ _ hr hd => step_of_decode_command hr rfl hd

/-- A decoded command never carries more payload than it takes, so one that is not short of words is complete. -/
theorem wellFormed_of_decode {L : Nat} {ws : List Word} {i : Instr} (h : decode L ws = .command i)
    (hlen : payloadLength L i ≤ (payloadOf i).length) : i.WellFormed L = true := by
  obtain ⟨rest, -, hpay⟩ := decode_eq_command h
  have hle : (payloadOf i).length ≤ payloadLength L i := by
    rw [hpay]
    exact List.length_take_le _ _
  exact wellFormed_iff.mpr (le_antisymm hle hlen)

/-- Settles O57: the step is neither a wait nor a reject, so it is the one write of a command whose payload is there,
and that command is what stands at the front of `CMD`. -/
theorem completedCommandTakesItsWords : Obligations.CompletedCommandTakesItsWords := by
  intro s t _ hstep hrej hne
  obtain rfl | ⟨c, rfl⟩ | ⟨i, hd, hexec⟩ := step_next hstep
  · exact absurd rfl hne
  · simp at hrej
  · obtain ⟨e, _⟩ | ⟨c, e⟩ | ⟨u, hu, e, hlen⟩ := exec_goes i s <;> cases hexec.symm.trans e
    · exact absurd rfl hne
    · simp at hrej
    · refine ⟨i, hd, wellFormed_of_decode hd hlen, ?_⟩
      rw [consume_cmd, writes_cmd hu, encode_append_drop hd]

/-! ## The worked encodings -/

/-- The words a complete command is written as are read back as that command. -/
theorem decode_of_encode_eq {L : Nat} {i : Instr} {ws : List Word} (h : encode i = ws)
    (hwf : i.WellFormed L = true) : decode L ws = .command i := by
  simpa [h] using decode_encode hwf []

/-- Settles O3: the encoder is run on each of R95's commands, and reading its words back is the round trip. -/
theorem workedEncodings : Obligations.WorkedEncodings := by
  have hadd : encode (.wadd 5 3 4) = [0x45340000#32] := by decide
  have hmul : encode (.wmul 3 1 2) = [0x83120000#32] := by decide
  have hset : encode (.wset 1 16 [123#32, 238#32]) = [0x11000010#32, 0x0000007B#32, 0x000000EE#32] := by decide
  have hrdx : encode (.wrdx 0 10 3 [2#32, 5#32, 5#32]) = [0x300A0003#32, 2#32, 5#32, 5#32] := by decide
  have heqs : encode (.weqs 0 [255#32]) = [0xA0000000#32, 0x000000FF#32] := by decide
  have hsget : encode (.sget 1) = [0xD0000001#32] := by decide
  exact ⟨hadd, decode_of_encode_eq hadd rfl, hmul, decode_of_encode_eq hmul rfl, hset, decode_of_encode_eq hset rfl,
    hrdx, decode_of_encode_eq hrdx rfl, heqs, decode_of_encode_eq heqs rfl, hsget, decode_of_encode_eq hsget rfl,
    by decide, by decide⟩

end Sys2Proof.Machine

/-! SUPPORT. The family 40_representation: a value goes into a register and comes out of it unchanged (`WSET`, `WGET`),
and the scan of the bit-length function (`WHB`) finds the binary size of the value. -/

namespace Sys2Proof.Machine

/-! ## Limbs as words -/

/-- A limb word's must-be-zero bits are zero exactly when its number is a limb (R85). -/
theorem limbWordOk_iff {L : Nat} {w : Word} : limbWordOk L w = true ↔ w.toNat < 2 ^ L := by
  simp [limbWordOk, ← BitVec.toNat_inj, Nat.shiftRight_eq_div_pow, Nat.div_eq_zero_iff]

theorem limbOfWord_eq_toNat {L : Nat} {w : Word} (h : w.toNat < 2 ^ L) : limbOfWord L w = w.toNat :=
  Nat.mod_eq_of_lt h

/-- A limb fits a word, because `L` is at most 32 (R9). -/
theorem toNat_ofNat_of_limb {p : Params} {x : Nat} (h : x < 2 ^ p.L) : (BitVec.ofNat 32 x).toNat = x := by
  have hx : x < 2 ^ 32 := h.trans_le (Nat.pow_le_pow_right (by decide) (L_bounds p).2)
  rw [BitVec.toNat_ofNat, Nat.mod_eq_of_lt hx]

theorem limbWordOk_ofNat {p : Params} {x : Nat} (h : x < 2 ^ p.L) : limbWordOk p.L (BitVec.ofNat 32 x) = true := by
  rwa [limbWordOk_iff, toNat_ofNat_of_limb h]

theorem limbOfWord_ofNat {p : Params} {x : Nat} (h : x < 2 ^ p.L) : limbOfWord p.L (BitVec.ofNat 32 x) = x := by
  rw [limbOfWord_eq_toNat (limbWordOk_iff.mp (limbWordOk_ofNat h)), toNat_ofNat_of_limb h]

section
variable {p : Params} {limbs : List Nat} (h : ∀ x ∈ limbs, x < 2 ^ p.L)
include h

theorem limbWords_ok : (limbs.map (BitVec.ofNat 32)).all (limbWordOk p.L) = true := by
  simpa using fun x hx => limbWordOk_ofNat (h x hx)

theorem limbWords_map_limbOfWord : (limbs.map (BitVec.ofNat 32)).map (limbOfWord p.L) = limbs := by
  rw [List.map_map]
  exact (List.map_congr_left fun x hx => limbOfWord_ofNat (h x hx)).trans limbs.map_id

theorem limbWords_map_toNat : (limbs.map (BitVec.ofNat 32)).map BitVec.toNat = limbs := by
  rw [List.map_map]
  exact (List.map_congr_left fun x hx => toNat_ofNat_of_limb (h x hx)).trans limbs.map_id

end

/-! ## WSET and WGET -/

/-- `WSET` of a value's width and limbs passes every check and stores the value. -/
theorem exec_wset_of_wf {s : State} {rd : RegNo} {width : BitVec 16} {limbs : List Nat}
    (h : WideInt.Wf s.params ⟨width.toNat, limbs⟩) :
    exec (.wset rd width (limbs.map (BitVec.ofNat 32))) s =
      .next ((s.setReg rd ⟨width.toNat, limbs⟩).consume (nl s.params.L width.toNat)) := by
  obtain ⟨hpos, hfits, hlen, hlimbs⟩ := h
  have hwords : (limbs.map (BitVec.ofNat 32)).length = nl s.params.L width.toNat := by rwa [List.length_map]
  rw [exec, execWset, checkNonzero_pos hpos, checkFits_le hfits, withPayload_full hwords,
    if_pos (limbWords_ok hlimbs), limbWords_map_limbOfWord hlimbs, finishReg]

theorem exec_wget_of_some {s : State} {ra : RegNo} {v : WideInt} (h : s.reg ra = some v) :
    exec (.wget ra) s = .next ((s.outWrite (wgetRecord v)).consume 0) :=
  withSource_some h _

/-- The words of a value's record, as numbers, are its width and its limbs: nothing is cut off in 32 bits. -/
theorem wgetRecord_map_toNat {p : Params} {width : BitVec 16} {limbs : List Nat} (h : ∀ x ∈ limbs, x < 2 ^ p.L) :
    (wgetRecord ⟨width.toNat, limbs⟩).map BitVec.toNat = width.toNat :: limbs := by
  have hwidth : (BitVec.ofNat 32 width.toNat).toNat = width.toNat := by
    rw [BitVec.toNat_ofNat, Nat.mod_eq_of_lt (width.isLt.trans (by decide))]
  rw [wgetRecord, List.map_cons, limbWords_map_toNat h, hwidth]

/-- Settles O9. -/
theorem wsetStoresWidthAndLimbs : Obligations.WsetStoresWidthAndLimbs :=
  fun _ _ _ _ hpos hfits hlen hlimbs => exec_wset_of_wf ⟨hpos, hfits, hlen, hlimbs⟩

/-- Settles O11. -/
theorem wgetAppendsWidthThenLimbs : Obligations.WgetAppendsWidthThenLimbs :=
  fun _ _ _ h => exec_wget_of_some h

/-- Settles O10: the register `WSET` wrote is the one `WGET` reads, and the words it appends stand behind those that
were on `OUT` before. -/
theorem wsetThenWgetIsIdentity : Obligations.WsetThenWgetIsIdentity := by
  intro s rd width limbs hpos hfits hlen hlimbs
  have hstored : ((s.setReg rd ⟨width.toNat, limbs⟩).consume (nl s.params.L width.toNat)).reg rd =
      some ⟨width.toNat, limbs⟩ := by simp
  refine ⟨_, _, exec_wset_of_wf ⟨hpos, hfits, hlen, hlimbs⟩, exec_wget_of_some hstored, ?_, ?_⟩
  · simpa using wgetRecord_map_toNat hlimbs
  · simp

/-! ## The bit-length function -/

/-- The scan of one limb finds its binary size: bit `n` is the top one of `n + 1` exactly when `2 ^ n` is reached. -/
theorem topBit_eq_size {n x : Nat} (h : x < 2 ^ n) : topBit n x = x.size := by
  induction n with
  | zero => simp_all [topBit]
  | succ n ih =>
    rw [topBit]
    by_cases hx : x < 2 ^ n
    · rw [Nat.testBit_eq_false_of_lt hx, if_neg Bool.false_ne_true, ih hx]
    · have hge : 2 ^ n ≤ x := Nat.le_of_not_lt hx
      rw [if_pos (Nat.testBit_of_two_pow_le_and_two_pow_add_one_gt hge h)]
      exact le_antisymm (Nat.lt_size.mpr hge) (Nat.size_le.mpr h)

/-- Bits below a nonzero number do not count towards the size. -/
theorem size_add_two_pow_mul {k lo x : Nat} (hlo : lo < 2 ^ k) (hx : x ≠ 0) :
    (lo + 2 ^ k * x).size = k + x.size := by
  apply le_antisymm
  · have hmul := Nat.mul_le_mul_left (2 ^ k) (Nat.lt_size_self x)
    rw [Nat.size_le, pow_add]
    rw [Nat.mul_succ] at hmul
    omega
  · calc k + x.size = (x <<< k).size := by rw [Nat.size_shiftLeft hx, Nat.add_comm]
      _ = (2 ^ k * x).size := by rw [Nat.shiftLeft_eq, Nat.mul_comm]
      _ ≤ (lo + 2 ^ k * x).size := Nat.size_le_size (Nat.le_add_left _ _)

/-- The scan over limbs, the most significant first, finds the size of the value: a zero limb adds nothing on top, and
below a nonzero one whole limbs are counted. -/
theorem topLimb_eq_size {L : Nat} {xs : List Nat} (h : ∀ x ∈ xs, x < 2 ^ L) :
    topLimb L xs = (val L xs.reverse).size := by
  induction xs with
  | nil => rfl
  | cons x below ih =>
    obtain ⟨hx, hbelow⟩ := List.forall_mem_cons.mp h
    have hval : val L (x :: below).reverse = val L below.reverse + 2 ^ (below.length * L) * x := by
      simp [val_append_limbs]
    rw [topLimb, hval]
    by_cases hzero : x = 0
    · simp [hzero, ih hbelow]
    · have hlo : val L below.reverse < 2 ^ (below.length * L) := by
        simpa using val_lt_of_limbs_lt (xs := below.reverse) (by simpa using hbelow)
      rw [if_pos hzero, topBit_eq_size hx, size_add_two_pow_mul hlo hzero]

/-- R121: the bit-length function is the binary size of the value, padding bits counted. -/
theorem hb_eq_size {p : Params} {v : WideInt} (h : v.Wf p) : hb p.L v = (val p.L v.limbs).size := by
  obtain ⟨-, -, -, hlimbs⟩ := h
  simpa [hb] using topLimb_eq_size (xs := v.limbs.reverse) (by simpa using hlimbs)

theorem size_eq_log2_add_one {n : Nat} (h : n ≠ 0) : n.size = Nat.log2 n + 1 :=
  le_antisymm (Nat.size_le.mpr Nat.lt_log2_self) (Nat.lt_size.mpr (Nat.log2_self_le h))

theorem val_eq_zero_iff {L : Nat} {xs : List Nat} : val L xs = 0 ↔ ∀ x ∈ xs, x = 0 := by
  induction xs with
  | nil => simp
  | cons x xs ih => simp [ih]

/-- Settles O12: every property is one of the binary size of the value. -/
theorem highestBitProperties : Obligations.HighestBitProperties := by
  refine ⟨fun p v hv => ?_, by decide⟩
  rw [hb_eq_size hv]
  refine ⟨Nat.size_eq_zero.trans val_eq_zero_iff, Nat.size_eq_zero, fun hne => ⟨size_eq_log2_add_one hne, ?_, ?_⟩,
    ?_, Nat.size_le.mpr, fun htop => ?_⟩
  · exact Nat.lt_size.mp (Nat.sub_one_lt (Nat.size_eq_zero.not.mpr hne))
  · exact Nat.lt_size_self _
  · exact hb_eq_size hv ▸ hb_le_limbs p.L v
  · rw [htop, Nat.size_pow, Nat.sub_add_cancel hv.1]

/-! ## WHB -/

theorem exec_whb_of_some {s : State} {ra : RegNo} {v : WideInt} (h : s.reg ra = some v) :
    exec (.whb ra) s = .next ((s.setHbr (hb s.params.L v)).consume 0) :=
  withSource_some h _

/-- `HBR` has room for every bit length, because `WIDTH_MAX` is at most 65535 (R11, R40). -/
theorem hb_lt_two_pow_16 {p : Params} (hp : p.Legal) {v : WideInt} (hv : v.Wf p) : hb p.L v < 2 ^ 16 :=
  calc hb p.L v ≤ p.widthMax := hb_le_widthMax hv
    _ ≤ 65535 := hp.2
    _ < 2 ^ 16 := by decide

/-- Settles O13. -/
theorem whbWritesTheBitLength : Obligations.WhbWritesTheBitLength := by
  intro s ra v hp hreg hv
  refine ⟨_, exec_whb_of_some hreg, ?_⟩
  rw [setHbr_hbr, BitVec.toNat_ofNat, Nat.mod_eq_of_lt (hb_lt_two_pow_16 hp hv), hb_eq_size hv]
  split
  next hzero => exact Nat.size_eq_zero.mpr hzero
  next hne => exact size_eq_log2_add_one hne

end Sys2Proof.Machine

/-! SUPPORT. The family 41_addsub: the one-limb steps are exact (R155), so the chain over the limbs computes
`val A + val B` or `val A - val B` modulo `2^(nr*L)` (R162); the top limb (R161) and the commands (R157 to R160)
follow. -/

namespace Sys2Proof.Machine

/-! ## Limb counts of a result -/

theorem one_le_bits (lw : LimbWidth) : 1 ≤ lw.bits :=
  le_trans (by decide) (limbWidth_bits_bounds lw).1

theorem nl_max (L v w : Nat) : nl L (max v w) = max (nl L v) (nl L w) :=
  Monotone.map_max fun _ _ h => nl_monotone L h

theorem nl_add_one {L : Nat} (hL : 1 ≤ L) (w : Nat) : nl L (w + 1) = w / L + 1 := by
  rw [nl, Nat.add_right_comm, Nat.add_sub_cancel, Nat.add_div_right w hL]

theorem nl_of_mod_eq_zero {L w : Nat} (hL : 1 ≤ L) (h : w % L = 0) : nl L w = w / L := by
  rw [nl, Nat.add_sub_assoc hL, Nat.add_div_of_dvd_right (Nat.dvd_of_mod_eq_zero h),
    Nat.div_eq_of_lt (Nat.sub_one_lt_of_lt hL), Nat.add_zero]

theorem nl_of_mod_ne_zero {L w : Nat} (hL : 1 ≤ L) (h : w % L ≠ 0) : nl L w = w / L + 1 := by
  obtain ⟨v, rfl⟩ := Nat.exists_eq_succ_of_ne_zero (show w ≠ 0 by rintro rfl; simp at h)
  rw [Nat.succ_eq_add_one, nl_add_one hL, Nat.succ_div_of_not_dvd (mt Nat.mod_eq_zero_of_dvd h)]

/-- R151: a full top limb has no room for one bit more. -/
theorem nl_add_one_of_mod_eq_zero {L w : Nat} (hL : 1 ≤ L) (h : w % L = 0) : nl L (w + 1) = nl L w + 1 := by
  rw [nl_add_one hL, nl_of_mod_eq_zero hL h]

/-- R151: the padding of the top limb takes one bit more. -/
theorem nl_add_one_of_mod_ne_zero {L w : Nat} (hL : 1 ≤ L) (h : w % L ≠ 0) : nl L (w + 1) = nl L w := by
  rw [nl_add_one hL, nl_of_mod_ne_zero hL h]

/-- Settles O15: the limb count is monotone, and one bit more takes a new limb exactly when the top limb is full. -/
theorem addSubLimbCount : Obligations.AddSubLimbCount := by
  intro lw wA wB _ _
  have hL := one_le_bits lw
  have hmono : ∀ {v w : Nat}, v ≤ w → nl lw.bits v ≤ nl lw.bits w := nl_monotone lw.bits
  refine ⟨nl_max .., fun h => ?_, fun h => ?_, hmono (le_max_left ..), hmono (le_max_right ..),
    hmono (Nat.le_succ_of_le (le_max_left ..)), hmono (Nat.le_succ_of_le (le_max_right ..))⟩
  · rw [nl_add_one_of_mod_eq_zero hL h, nl_max]
  · rw [nl_add_one_of_mod_ne_zero hL h, nl_max]

/-! ## The one-limb steps -/

section
variable {L a b : Nat} (ha : a < 2 ^ L) (hb : b < 2 ^ L)
include ha hb

/-- A wrapping limb addition wraps once or not at all. -/
theorem wrapAdd_eq_ite : wrapAdd L a b = if 2 ^ L ≤ a + b then a + b - 2 ^ L else a + b := by
  split
  next h => rw [wrapAdd, Nat.mod_eq_sub_mod h, Nat.mod_eq_of_lt (by omega)]
  next h => exact Nat.mod_eq_of_lt (Nat.lt_of_not_le h)

/-- A wrapping limb subtraction wraps once or not at all. -/
theorem wrapSub_eq_ite : wrapSub L a b = if a < b then a + 2 ^ L - b else a - b := by
  rw [wrapSub, Nat.mod_eq_of_lt hb]
  split
  next h => rw [Nat.mod_eq_of_lt (by omega)]; omega
  next h => rw [Nat.mod_eq_sub_mod (by omega), Nat.mod_eq_of_lt (by omega)]; omega

/-- The wrap test of R153: the sum is below its first operand exactly when the addition wrapped. -/
theorem wrapAdd_lt_left_iff : wrapAdd L a b < a ↔ 2 ^ L ≤ a + b := by
  rw [wrapAdd_eq_ite ha hb]
  split <;> omega

/-- The wrap test of R154: the difference is above its first operand exactly when the subtraction wrapped. -/
theorem lt_wrapSub_iff : a < wrapSub L a b ↔ a < b := by
  rw [wrapSub_eq_ite ha hb]
  split <;> omega

end

theorem wrapAdd_lt (L a b : Nat) : wrapAdd L a b < 2 ^ L := Nat.mod_lt _ (Nat.two_pow_pos L)

theorem wrapSub_lt (L a b : Nat) : wrapSub L a b < 2 ^ L := Nat.mod_lt _ (Nat.two_pow_pos L)

section
variable {L a b c : Nat} (hL : 1 ≤ L) (ha : a < 2 ^ L) (hb : b < 2 ^ L) (hc : c ≤ 1)
include hL

theorem carry_lt_two_pow (hc : c ≤ 1) : c < 2 ^ L :=
  lt_of_le_of_lt hc (Nat.one_lt_two_pow (Nat.ne_of_gt hL))

include ha hb hc

/-- R155: the two wrap tests of one adder step are never both true. -/
theorem addStep_wraps_once : ¬ (wrapAdd L a b < a ∧ wrapAdd L (wrapAdd L a b) c < wrapAdd L a b) := by
  rw [wrapAdd_lt_left_iff ha hb, wrapAdd_lt_left_iff (wrapAdd_lt L a b) (carry_lt_two_pow hL hc), wrapAdd_eq_ite ha hb]
  rintro ⟨h, h'⟩
  rw [if_pos h] at h'
  omega

/-- R155: the two wrap tests of one subtractor step are never both true. -/
theorem subStep_wraps_once : ¬ (a < wrapSub L a b ∧ wrapSub L a b < wrapSub L (wrapSub L a b) c) := by
  rw [lt_wrapSub_iff ha hb, lt_wrapSub_iff (wrapSub_lt L a b) (carry_lt_two_pow hL hc), wrapSub_eq_ite ha hb]
  rintro ⟨h, h'⟩
  rw [if_pos h] at h'
  omega

/-- The adder's step case by case: `2^L` is taken off exactly when the carry goes out. -/
theorem addStep_eq_ite :
    addStep L a b c = if 2 ^ L ≤ a + b + c then (a + b + c - 2 ^ L, 1) else (a + b + c, 0) := by
  have hcL := carry_lt_two_pow hL hc
  have hsum := wrapAdd_eq_ite ha hb
  simp only [addStep, wrapAdd_lt_left_iff ha hb, wrapAdd_lt_left_iff (wrapAdd_lt L a b) hcL]
  rw [wrapAdd_eq_ite (wrapAdd_lt L a b) hcL]
  split_ifs at hsum ⊢ <;> simp only [Prod.mk.injEq, and_true] <;> omega

/-- The subtractor's step case by case: `2^L` is put on exactly when the borrow goes out. -/
theorem subStep_eq_ite :
    subStep L a b c = if a < b + c then (a + 2 ^ L - (b + c), 1) else (a - (b + c), 0) := by
  have hcL := carry_lt_two_pow hL hc
  have hdiff := wrapSub_eq_ite ha hb
  simp only [subStep, lt_wrapSub_iff ha hb, lt_wrapSub_iff (wrapSub_lt L a b) hcL]
  rw [wrapSub_eq_ite (wrapSub_lt L a b) hcL]
  split_ifs at hdiff ⊢ <;> simp only [Prod.mk.injEq, and_true] <;> omega

/-- R155: the adder's step is a full adder. -/
theorem addStep_eq_mod_div : addStep L a b c = ((a + b + c) % 2 ^ L, (a + b + c) / 2 ^ L) := by
  rw [addStep_eq_ite hL ha hb hc]
  split
  next h =>
    have hlt : a + b + c - 2 ^ L < 2 ^ L := by omega
    rw [Nat.mod_eq_sub_mod h, Nat.mod_eq_of_lt hlt, Nat.div_eq_sub_div (Nat.two_pow_pos L) h, Nat.div_eq_of_lt hlt]
  next h => rw [Nat.mod_eq_of_lt (Nat.lt_of_not_le h), Nat.div_eq_of_lt (Nat.lt_of_not_le h)]

end

/-- A one-limb step that adds `b + c` to `a` with sign `σ` and loses nothing: what it takes off its limb is what the
carry or borrow, one bit, stands for at the next position. -/
def ExactStep (L : Nat) (σ : Int) (stp : Nat → Nat → Nat → Nat × Nat) : Prop :=
  ∀ a b c, a < 2 ^ L → b < 2 ^ L → c ≤ 1 →
    (stp a b c).2 ≤ 1 ∧ ((stp a b c).1 : Int) + 2 ^ L * (σ * (stp a b c).2) = a + σ * (b + c)

theorem addStep_exact {L : Nat} (hL : 1 ≤ L) : ExactStep L 1 (addStep L) := by
  intro a b c ha hb hc
  rw [addStep_eq_ite hL ha hb hc]
  split
  next h =>
    refine ⟨le_rfl, ?_⟩
    push_cast [Nat.cast_sub h]
    ring
  next h =>
    refine ⟨Nat.zero_le 1, ?_⟩
    push_cast
    ring

theorem subStep_exact {L : Nat} (hL : 1 ≤ L) : ExactStep L (-1) (subStep L) := by
  intro a b c ha hb hc
  rw [subStep_eq_ite hL ha hb hc]
  split
  next h =>
    have hle : b + c ≤ a + 2 ^ L := by omega
    refine ⟨le_rfl, ?_⟩
    push_cast [Nat.cast_sub hle]
    ring
  next h =>
    refine ⟨Nat.zero_le 1, ?_⟩
    push_cast [Nat.cast_sub (Nat.le_of_not_lt h)]
    ring

/-- R155: the subtractor's limb is the difference modulo `2^L`. -/
theorem subStep_limb_eq_emod {L a b c : Nat} (hL : 1 ≤ L) (ha : a < 2 ^ L) (hb : b < 2 ^ L) (hc : c ≤ 1) :
    ((subStep L a b c).1 : Int) = ((a : Int) - b - c) % 2 ^ L := by
  obtain ⟨-, hexact⟩ := subStep_exact hL a b c ha hb hc
  have hsum : (a : Int) - b - c = (subStep L a b c).1 + 2 ^ L * (-1 * (subStep L a b c).2) := by
    rw [hexact]
    ring
  rw [hsum, Int.add_mul_emod_self_left, Int.emod_eq_of_lt (Int.natCast_nonneg _)]
  exact_mod_cast subStep_limb_lt L a b c

theorem subStep_borrow {L a b c : Nat} (hL : 1 ≤ L) (ha : a < 2 ^ L) (hb : b < 2 ^ L) (hc : c ≤ 1) :
    (subStep L a b c).2 = if a < b + c then 1 else 0 := by
  rw [subStep_eq_ite hL ha hb hc]
  split <;> rfl

/-- Settles O14: the corner cases are the case equations at the largest and the smallest limb. -/
theorem oneLimbStepsAreFullAdders : Obligations.OneLimbStepsAreFullAdders := by
  intro lw a b c ha hb hc
  have hL := one_le_bits lw
  have hB : 1 < 2 ^ lw.bits := Nat.one_lt_two_pow (Nat.ne_of_gt hL)
  have hzero : 0 < 2 ^ lw.bits := Nat.two_pow_pos _
  have hmax : 2 ^ lw.bits - 1 < 2 ^ lw.bits := Nat.sub_one_lt_of_lt hB
  refine ⟨addStep_eq_mod_div hL ha hb hc, subStep_limb_eq_emod hL ha hb hc, subStep_borrow hL ha hb hc,
    addStep_wraps_once hL ha hb hc, subStep_wraps_once hL ha hb hc, (addStep_exact hL a b c ha hb hc).1,
    (subStep_exact hL a b c ha hb hc).1, ?_, ?_, ?_, ?_⟩
  · rw [addStep_eq_ite hL hmax hmax le_rfl, if_pos (by omega), Prod.mk.injEq]
    omega
  · rw [wrapSub_eq_ite hzero hmax, if_pos (by omega)]
    omega
  · rw [subStep_eq_ite hL hzero hmax le_rfl, if_pos (by omega), Prod.mk.injEq]
    omega
  · rw [subStep_eq_ite hL hzero hzero le_rfl, if_pos (by omega), Prod.mk.injEq]
    omega

/-! ## The chain computes the value modulo `2^(nr*L)` -/

theorem headD_lt_of_limbs_lt {L : Nat} {xs : List Nat} (h : ∀ x ∈ xs, x < 2 ^ L) : xs.headD 0 < 2 ^ L := by
  cases xs with
  | nil => exact Nat.two_pow_pos L
  | cons x xs => exact h x List.mem_cons_self

/-- R156, R162: a chain of exact steps is congruent to the exact result. The lowest limb and its carry are exact, and
the positions above are the induction hypothesis, scaled by `2^L`. -/
theorem val_chainFrom_modEq {L : Nat} {σ : Int} {stp : Nat → Nat → Nat → Nat × Nat} (hstp : ExactStep L σ stp)
    (n : Nat) {as bs : List Nat} {c : Nat} (has : ∀ x ∈ as, x < 2 ^ L) (hbs : ∀ x ∈ bs, x < 2 ^ L) (hc : c ≤ 1) :
    (val L (chainFrom stp n as bs c) : Int) ≡ val L as + σ * (val L bs + c) [ZMOD 2 ^ (n * L)] := by
  induction n generalizing as bs c with
  | zero => simpa using Int.modEq_one
  | succ n ih =>
    obtain ⟨hcarry, hexact⟩ :=
      hstp (as.headD 0) (bs.headD 0) c (headD_lt_of_limbs_lt has) (headD_lt_of_limbs_lt hbs) hc
    have habove := ih (fun x hx => has x (List.mem_of_mem_tail hx)) (fun x hx => hbs x (List.mem_of_mem_tail hx)) hcarry
    have hpow : (2 : Int) ^ ((n + 1) * L) = 2 ^ L * 2 ^ (n * L) := by
      rw [← pow_add, Nat.succ_mul, Nat.add_comm]
    rw [chainFrom, val_cons, val_headD_tail L as, val_headD_tail L bs, hpow]
    push_cast
    set r := stp (as.headD 0) (bs.headD 0) c
    calc (r.1 : Int) + 2 ^ L * val L (chainFrom stp n as.tail bs.tail r.2)
        ≡ r.1 + 2 ^ L * (val L as.tail + σ * (val L bs.tail + r.2)) [ZMOD 2 ^ L * 2 ^ (n * L)] :=
          (Int.ModEq.mul_left' habove).add_left _
      _ = (as.headD 0 : Nat) + 2 ^ L * val L as.tail + σ * ((bs.headD 0 : Nat) + 2 ^ L * val L bs.tail + c) := by
          linear_combination hexact

/-- The chain's value is the exact result reduced, since its limbs hold nothing at or above `2^(n*L)`. -/
theorem val_chainFrom {L : Nat} {σ : Int} {stp : Nat → Nat → Nat → Nat × Nat} (hstp : ExactStep L σ stp)
    (hlimb : ∀ a b c, (stp a b c).1 < 2 ^ L) (n : Nat) {as bs : List Nat} (has : ∀ x ∈ as, x < 2 ^ L)
    (hbs : ∀ x ∈ bs, x < 2 ^ L) :
    (val L (chainFrom stp n as bs 0) : Int) = (val L as + σ * val L bs) % 2 ^ (n * L) := by
  have hlt := val_lt_of_limbs_lt (chainFrom_limbs_lt hlimb n as bs 0)
  have hmod := val_chainFrom_modEq hstp n has hbs (Nat.zero_le 1)
  rw [chainFrom_length] at hlt
  rw [Nat.cast_zero, add_zero] at hmod
  rw [← hmod.eq, Int.emod_eq_of_lt (Int.natCast_nonneg _) (by exact_mod_cast hlt)]

/-! ## The value laws of the sum and the difference -/

@[simp] theorem addAt_limbs_length (L w : Nat) (a b : WideInt) : (addAt L w a b).limbs.length = nl L w :=
  chainFrom_length ..

@[simp] theorem subAt_limbs_length (L w : Nat) (a b : WideInt) : (subAt L w a b).limbs.length = nl L w :=
  chainFrom_length ..

theorem addAt_limbs_lt (L w : Nat) (a b : WideInt) : ∀ x ∈ (addAt L w a b).limbs, x < 2 ^ L :=
  chainFrom_limbs_lt (addStep_limb_lt L) _ _ _ _

theorem subAt_limbs_lt (L w : Nat) (a b : WideInt) : ∀ x ∈ (subAt L w a b).limbs, x < 2 ^ L :=
  chainFrom_limbs_lt (subStep_limb_lt L) _ _ _ _

section
variable {p : Params} {a b : WideInt} (ha : a.Wf p) (hb : b.Wf p)
include ha hb

/-- R162: the sum, for clean and dirty operands. -/
theorem val_addAt (w : Nat) :
    val p.L (addAt p.L w a b).limbs = (val p.L a.limbs + val p.L b.limbs) % 2 ^ (nl p.L w * p.L) := by
  obtain ⟨-, -, -, hla⟩ := ha
  obtain ⟨-, -, -, hlb⟩ := hb
  have hval := val_chainFrom (addStep_exact (one_le_L p)) (addStep_limb_lt p.L) (nl p.L w) hla hlb
  rw [one_mul] at hval
  exact_mod_cast hval

/-- R162: the difference, for clean and dirty operands. -/
theorem val_subAt (w : Nat) :
    (val p.L (subAt p.L w a b).limbs : Int) =
      ((val p.L a.limbs : Int) - val p.L b.limbs) % 2 ^ (nl p.L w * p.L) := by
  obtain ⟨-, -, -, hla⟩ := ha
  obtain ⟨-, -, -, hlb⟩ := hb
  have hval := val_chainFrom (subStep_exact (one_le_L p)) (subStep_limb_lt p.L) (nl p.L w) hla hlb
  rwa [neg_one_mul, ← sub_eq_add_neg] at hval

/-- The sum as the commands state it: its limb count, its limbs and its value. -/
theorem addAt_limbs_spec (w : Nat) :
    (addAt p.L w a b).limbs.length = nl p.L w ∧ (∀ x ∈ (addAt p.L w a b).limbs, x < 2 ^ p.L) ∧
      val p.L (addAt p.L w a b).limbs =
        (val p.L a.limbs + val p.L b.limbs) % 2 ^ ((addAt p.L w a b).limbs.length * p.L) := by
  refine ⟨addAt_limbs_length .., addAt_limbs_lt _ _ a b, ?_⟩
  rw [addAt_limbs_length, val_addAt ha hb]

/-- The difference as the commands state it. -/
theorem subAt_limbs_spec (w : Nat) :
    (subAt p.L w a b).limbs.length = nl p.L w ∧ (∀ x ∈ (subAt p.L w a b).limbs, x < 2 ^ p.L) ∧
      (val p.L (subAt p.L w a b).limbs : Int) =
        ((val p.L a.limbs : Int) - val p.L b.limbs) % 2 ^ ((subAt p.L w a b).limbs.length * p.L) := by
  refine ⟨subAt_limbs_length .., subAt_limbs_lt _ _ a b, ?_⟩
  rw [subAt_limbs_length, val_subAt ha hb]

theorem val_addAt_of_lt {w : Nat} (h : val p.L a.limbs + val p.L b.limbs < 2 ^ (nl p.L w * p.L)) :
    val p.L (addAt p.L w a b).limbs = val p.L a.limbs + val p.L b.limbs := by
  rw [val_addAt ha hb, Nat.mod_eq_of_lt h]

theorem val_subAt_of_le {w : Nat} (hle : val p.L b.limbs ≤ val p.L a.limbs)
    (hlt : val p.L a.limbs < 2 ^ (nl p.L w * p.L)) :
    val p.L (subAt p.L w a b).limbs = val p.L a.limbs - val p.L b.limbs := by
  have hval := val_subAt ha hb w
  rw [← Nat.cast_sub hle] at hval
  have hmod := Nat.mod_eq_of_lt (lt_of_le_of_lt (Nat.sub_le _ (val p.L b.limbs)) hlt)
  rw [← hmod]
  exact_mod_cast hval

/-- A borrow leaves `2^(nr*L)` minus what is missing. -/
theorem val_subAt_of_borrow {w : Nat} (hlt : val p.L a.limbs < val p.L b.limbs)
    (hle : val p.L b.limbs ≤ 2 ^ (nl p.L w * p.L)) :
    val p.L (subAt p.L w a b).limbs = 2 ^ (nl p.L w * p.L) - (val p.L b.limbs - val p.L a.limbs) := by
  have hval := val_subAt ha hb w
  have hle' : (val p.L b.limbs : Int) ≤ 2 ^ (nl p.L w * p.L) := by exact_mod_cast hle
  rw [← Int.add_emod_right, Int.emod_eq_of_lt (by omega) (by omega)] at hval
  zify [hlt.le, Nat.sub_le_of_le_add (Nat.le_add_right_of_le hle)]
  omega

end

/-- Clean operands add up to a value of `max + 1` bits. -/
theorem val_add_lt_of_clean {L : Nat} {a b : WideInt} (ha : a.Clean L) (hb : b.Clean L) :
    val L a.limbs + val L b.limbs < 2 ^ (max a.bw b.bw + 1) := by
  have hva := lt_of_lt_of_le ha (Nat.pow_le_pow_right two_pos (le_max_left a.bw b.bw))
  have hvb := lt_of_lt_of_le hb (Nat.pow_le_pow_right two_pos (le_max_right a.bw b.bw))
  rw [pow_succ]
  omega

theorem two_pow_le_two_pow_nl {L w v : Nat} (hL : 1 ≤ L) (h : v ≤ w) : 2 ^ v ≤ 2 ^ (nl L w * L) :=
  Nat.pow_le_pow_right two_pos (h.trans (nl_bounds hL w).2)

/-- Settles O21: clean operands leave room for the exact result in `max + 1` bits. -/
theorem addSubValueLaws : Obligations.AddSubValueLaws := by
  intro p a b ha hb w va vb
  have hfits : 2 ^ (w + 1) ≤ 2 ^ (nl p.L (w + 1) * p.L) := two_pow_le_two_pow_nl (one_le_L p) le_rfl
  refine ⟨val_addAt ha hb _, val_addAt ha hb _, val_subAt ha hb _, val_subAt ha hb _, fun hca hcb => ?_⟩
  have hclean : va + vb < 2 ^ (w + 1) := val_add_lt_of_clean hca hcb
  have hva : va < 2 ^ (w + 1) := lt_of_le_of_lt (Nat.le_add_right va vb) hclean
  refine ⟨?_, fun hle => ?_, val_addAt_of_lt ha hb⟩
  · have hsum := val_addAt_of_lt ha hb (hclean.trans_le hfits)
    exact ⟨hsum, by rwa [WideInt.Clean, hsum]⟩
  · have hdiff := val_subAt_of_le ha hb hle (hva.trans_le hfits)
    exact ⟨hdiff, by rw [WideInt.Clean, hdiff]; exact lt_of_le_of_lt (Nat.sub_le va vb) hva⟩

/-! ## The commands -/

section
variable {s : State} {ra rb : RegNo} {a b : WideInt} (ha : s.reg ra = some a) (hb : s.reg rb = some b)
include ha hb

theorem exec_wadd_of_some (rd : RegNo) (hfits : max a.bw b.bw + 1 ≤ s.params.widthMax) :
    exec (.wadd rd ra rb) s = .next ((s.setReg rd (addAt s.params.L (max a.bw b.bw + 1) a b)).consume 0) :=
  (withSources_some ha hb _).trans (checkFits_le hfits _)

theorem exec_waddt_of_some (rd : RegNo) :
    exec (.waddt rd ra rb) s = .next ((s.setReg rd (addAt s.params.L (max a.bw b.bw) a b)).consume 0) :=
  withSources_some ha hb _

theorem exec_wsub_of_some (rd : RegNo) (hfits : max a.bw b.bw + 1 ≤ s.params.widthMax) :
    exec (.wsub rd ra rb) s = .next ((s.setReg rd (subAt s.params.L (max a.bw b.bw + 1) a b)).consume 0) :=
  (withSources_some ha hb _).trans (checkFits_le hfits _)

theorem exec_wsubt_of_some (rd : RegNo) :
    exec (.wsubt rd ra rb) s = .next ((s.setReg rd (subAt s.params.L (max a.bw b.bw) a b)).consume 0) :=
  withSources_some ha hb _

end

/-- Settles O16: the stored limbs are those of the sum at width `max + 1`. -/
theorem waddStoresTheSum : Obligations.WaddStoresTheSum :=
  fun _ rd _ _ _ _ hra hrb ha hb hfits => ⟨_, exec_wadd_of_some hra hrb rd hfits, addAt_limbs_spec ha hb _⟩

/-- Settles O17: the stored limbs are those of the sum at width `max`. -/
theorem waddtStoresTheWrappedSum : Obligations.WaddtStoresTheWrappedSum :=
  fun _ rd _ _ _ _ hra hrb ha hb => ⟨_, exec_waddt_of_some hra hrb rd, addAt_limbs_spec ha hb _⟩

/-- Settles O18: the stored limbs are those of the difference at width `max + 1`. -/
theorem wsubStoresTheDifference : Obligations.WsubStoresTheDifference :=
  fun _ rd _ _ _ _ hra hrb ha hb hfits => ⟨_, exec_wsub_of_some hra hrb rd hfits, subAt_limbs_spec ha hb _⟩

/-- Settles O19: the stored limbs are those of the difference at width `max`. -/
theorem wsubtStoresTheWrappedDifference : Obligations.WsubtStoresTheWrappedDifference :=
  fun _ rd _ _ _ _ hra hrb ha hb => ⟨_, exec_wsubt_of_some hra hrb rd, subAt_limbs_spec ha hb _⟩

/-! ## The top limb -/

/-- Limb `i` of a value is its digit of weight `2^(i*L)`. -/
theorem getD_eq_val_div_mod {L : Nat} {xs : List Nat} (h : ∀ x ∈ xs, x < 2 ^ L) (i : Nat) :
    xs.getD i 0 = val L xs / 2 ^ (i * L) % 2 ^ L := by
  induction xs generalizing i with
  | nil => simp
  | cons x xs ih =>
    obtain ⟨hx, hxs⟩ := List.forall_mem_cons.mp h
    cases i with
    | zero => simp [Nat.mod_eq_of_lt hx]
    | succ i =>
      have habove : val L (x :: xs) / 2 ^ L = val L xs := by
        rw [val_cons, Nat.add_mul_div_left _ _ (Nat.two_pow_pos L), Nat.div_eq_of_lt hx, Nat.zero_add]
      rw [List.getD_cons_succ, ih hxs, Nat.succ_mul, Nat.add_comm, pow_add, ← Nat.div_div_eq_div_mul, habove]

/-- The top limb of a value is what stands above all its other limbs. -/
theorem getD_top_eq_val_div {L n : Nat} {xs : List Nat} (h : ∀ x ∈ xs, x < 2 ^ L) (hlen : xs.length = n + 1) :
    xs.getD n 0 = val L xs / 2 ^ (n * L) := by
  have hlt := val_lt_of_limbs_lt h
  rw [hlen, Nat.succ_mul, pow_add] at hlt
  rw [getD_eq_val_div_mod h, Nat.mod_eq_of_lt (Nat.div_lt_of_lt_mul hlt)]

theorem testBit_getD {L : Nat} {xs : List Nat} (h : ∀ x ∈ xs, x < 2 ^ L) (i : Nat) {k : Nat} (hk : k < L) :
    (xs.getD i 0).testBit k = (val L xs).testBit (i * L + k) := by
  rw [getD_eq_val_div_mod h, Nat.testBit_mod_two_pow, Nat.testBit_div_two_pow]
  simp [hk, Nat.add_comm]

/-- Limbs that are missing at the top do not count. -/
theorem val_lt_of_length_le {L n : Nat} {xs : List Nat} (h : ∀ x ∈ xs, x < 2 ^ L) (hle : xs.length ≤ n) :
    val L xs < 2 ^ (n * L) :=
  (val_lt_of_limbs_lt h).trans_le (Nat.pow_le_pow_right two_pos (Nat.mul_le_mul_right L hle))

/-- The highest of `w + 1` bits says whether `2 ^ w` is reached. -/
theorem testBit_eq_decide_le {w x : Nat} (h : x < 2 ^ (w + 1)) : x.testBit w = decide (2 ^ w ≤ x) := by
  by_cases hx : 2 ^ w ≤ x
  · rw [Nat.testBit_of_two_pow_le_and_two_pow_add_one_gt hx h, decide_eq_true hx]
  · rw [Nat.testBit_eq_false_of_lt (Nat.lt_of_not_le hx), decide_eq_false hx]

/-- A small positive number taken from `2 ^ m` leaves every bit above its own bits set. -/
theorem testBit_two_pow_sub {m w d j : Nat} (hpos : 0 < d) (hd : d ≤ 2 ^ w) (hwj : w ≤ j) (hjm : j < m) :
    (2 ^ m - d).testBit j = true := by
  obtain ⟨e, rfl⟩ := Nat.exists_eq_succ_of_ne_zero (Nat.ne_of_gt hpos)
  have hj : e < 2 ^ j := hd.trans (Nat.pow_le_pow_right two_pos hwj)
  rw [Nat.testBit_two_pow_sub_succ (hj.trans (Nat.pow_lt_pow_right one_lt_two hjm)), Nat.testBit_eq_false_of_lt hj]
  simp [hjm]

section
variable {p : Params} {a b : WideInt} (ha : a.Wf p) (hb : b.Wf p)
include ha hb

/-- R151: the longer operand has the limb count of the larger width. -/
theorem max_length_eq_nl : max a.limbs.length b.limbs.length = nl p.L (max a.bw b.bw) := by
  obtain ⟨-, -, hla, -⟩ := ha
  obtain ⟨-, -, hlb, -⟩ := hb
  rw [nl_max, hla, hlb]

section
variable {n w : Nat} (hn : nl p.L w = n + 1) (hva : val p.L a.limbs < 2 ^ (n * p.L))
  (hvb : val p.L b.limbs < 2 ^ (n * p.L))
include hn hva hvb

/-- With an extra limb above both operands, nothing of the sum is lost. -/
theorem val_addAt_of_extra_limb :
    val p.L (addAt p.L w a b).limbs = val p.L a.limbs + val p.L b.limbs := by
  have hroom : 2 ^ (n * p.L + 1) ≤ 2 ^ (nl p.L w * p.L) := by
    rw [hn, Nat.succ_mul]
    exact Nat.pow_le_pow_right two_pos (Nat.add_le_add_left (one_le_L p) _)
  apply val_addAt_of_lt ha hb
  rw [pow_succ] at hroom
  omega

/-- R161: the extra limb of the sum is the carry. -/
theorem addAt_extra_limb :
    (addAt p.L w a b).limbs.getD n 0 = (val p.L a.limbs + val p.L b.limbs) / 2 ^ (n * p.L) := by
  rw [getD_top_eq_val_div (addAt_limbs_lt p.L w a b) (by rw [addAt_limbs_length, hn]),
    val_addAt_of_extra_limb ha hb hn hva hvb]

theorem addAt_extra_limb_le_one : (addAt p.L w a b).limbs.getD n 0 ≤ 1 := by
  rw [addAt_extra_limb ha hb hn hva hvb, ← Nat.lt_succ_iff]
  exact Nat.div_lt_of_lt_mul (by omega)

/-- R161: the extra limb of the difference is all ones after a borrow and 0 otherwise. -/
theorem subAt_extra_limb :
    (subAt p.L w a b).limbs.getD n 0 = if val p.L a.limbs < val p.L b.limbs then 2 ^ p.L - 1 else 0 := by
  have hpow : 2 ^ (nl p.L w * p.L) = 2 ^ (n * p.L) * 2 ^ p.L := by rw [hn, Nat.succ_mul, pow_add]
  have hle : 2 ^ (n * p.L) ≤ 2 ^ (nl p.L w * p.L) := by
    rw [hpow]
    exact Nat.le_mul_of_pos_right _ (Nat.two_pow_pos _)
  rw [getD_top_eq_val_div (subAt_limbs_lt p.L w a b) (by rw [subAt_limbs_length, hn])]
  split
  next hlt =>
    rw [val_subAt_of_borrow ha hb hlt (hvb.le.trans hle), hpow]
    obtain ⟨d, hd⟩ := Nat.exists_eq_add_of_lt hlt
    rw [hd, show val p.L a.limbs + d + 1 - val p.L a.limbs = d + 1 by omega,
      Nat.mul_sub_div _ _ _ (by rw [← hpow]; omega), Nat.div_eq_of_lt (by omega)]
  next hge =>
    have hle' := Nat.le_of_not_lt hge
    rw [val_subAt_of_le ha hb hle' (hva.trans_le hle), Nat.div_eq_of_lt (by omega)]

end

section
variable {n w : Nat} (hw : w = n * p.L + w % p.L) (hcb : val p.L b.limbs < 2 ^ w)
include hw hcb

/-- R161: without an extra limb, the carry of clean operands is the first padding bit. -/
theorem addAt_carry_bit (hca : val p.L a.limbs < 2 ^ w) :
    ((addAt p.L (w + 1) a b).limbs.getD n 0).testBit (w % p.L) =
      decide (2 ^ w ≤ val p.L a.limbs + val p.L b.limbs) := by
  have hsum : val p.L a.limbs + val p.L b.limbs < 2 ^ (w + 1) := by
    rw [pow_succ]
    omega
  have hfits : 2 ^ (w + 1) ≤ 2 ^ (nl p.L (w + 1) * p.L) := two_pow_le_two_pow_nl (one_le_L p) le_rfl
  rw [testBit_getD (addAt_limbs_lt _ _ a b) n (Nat.mod_lt w (one_le_L p)), ← hw,
    val_addAt_of_lt ha hb (hsum.trans_le hfits), testBit_eq_decide_le hsum]

/-- R161: without an extra limb, a borrow of clean operands sets every padding bit. -/
theorem subAt_borrow_bits (hn : nl p.L (w + 1) = n + 1) (hlt : val p.L a.limbs < val p.L b.limbs) {k : Nat}
    (hwk : w % p.L ≤ k) (hk : k < p.L) :
    ((subAt p.L (w + 1) a b).limbs.getD n 0).testBit k = true := by
  have hfits : 2 ^ w ≤ 2 ^ (nl p.L (w + 1) * p.L) := two_pow_le_two_pow_nl (one_le_L p) (Nat.le_succ w)
  rw [testBit_getD (subAt_limbs_lt _ _ a b) n hk, val_subAt_of_borrow ha hb hlt (hcb.le.trans hfits), hn, Nat.succ_mul]
  exact testBit_two_pow_sub (w := w) (Nat.sub_pos_of_lt hlt) (by omega) (by omega) (by omega)

end
end

/-- Settles O20: a full top limb leaves the carry or borrow a limb of its own, any other its padding bits. -/
theorem topLimbShowsCarryOrBorrow : Obligations.TopLimbShowsCarryOrBorrow := by
  intro p a b ha hb w nmax sum diff
  have hL := one_le_L p
  have hnmax : nmax = nl p.L w := max_length_eq_nl ha hb
  refine ⟨fun hfull => ?_, fun hpad => ?_⟩
  · have hn : nl p.L (w + 1) = nmax + 1 := by rw [nl_add_one_of_mod_eq_zero hL hfull, hnmax]
    have ⟨_, _, _, hla⟩ := ha
    have ⟨_, _, _, hlb⟩ := hb
    have hva := val_lt_of_length_le hla (le_max_left a.limbs.length b.limbs.length)
    have hvb := val_lt_of_length_le hlb (le_max_right a.limbs.length b.limbs.length)
    exact ⟨by rw [addAt_limbs_length, hn], by rw [subAt_limbs_length, hn], addAt_extra_limb ha hb hn hva hvb,
      addAt_extra_limb_le_one ha hb hn hva hvb, subAt_extra_limb ha hb hn hva hvb,
      val_addAt_of_extra_limb ha hb hn hva hvb⟩
  · have hn : nl p.L (w + 1) = nmax := by rw [nl_add_one_of_mod_ne_zero hL hpad, hnmax]
    refine ⟨by rw [addAt_limbs_length, hn], by rw [subAt_limbs_length, hn], fun hca hcb => ?_⟩
    have htop : nmax = w / p.L + 1 := by rw [hnmax, nl_of_mod_ne_zero hL hpad]
    have hn' : nl p.L (w + 1) = nmax - 1 + 1 := by rw [hn, htop, Nat.add_sub_cancel]
    have hw : w = (nmax - 1) * p.L + w % p.L := by
      rw [htop, Nat.add_sub_cancel, Nat.mul_comm, Nat.div_add_mod]
    have hva : val p.L a.limbs < 2 ^ w := hca.trans_le (Nat.pow_le_pow_right two_pos (le_max_left ..))
    have hvb : val p.L b.limbs < 2 ^ w := hcb.trans_le (Nat.pow_le_pow_right two_pos (le_max_right ..))
    exact ⟨addAt_carry_bit ha hb hw hvb hva, fun hlt k => subAt_borrow_bits ha hb hw hvb hn' hlt⟩

end Sys2Proof.Machine

/-! SUPPORT. The family 42_multiply: one cell of the multiplier is exact (R184), so a row adds `b * val A` to the result
array and the rows together compute `val A * val B` modulo `2^(nr*L)` (R185); symmetry and the product with one (R187)
follow from the value law, since limbs of a known count are fixed by their value. -/

namespace Sys2Proof.Machine

/-! ## The limb count of a product -/

/-- R181: two values side by side have room for their product. -/
theorem nl_add_le {L : Nat} (hL : 1 ≤ L) (v w : Nat) : nl L (v + w) ≤ nl L v + nl L w := by
  apply nl_le_of_le_mul hL
  rw [Nat.add_mul]
  exact Nat.add_le_add (nl_bounds hL v).2 (nl_bounds hL w).2

/-- Settles O23: the limb count is monotone and subadditive. -/
theorem productLimbCount : Obligations.ProductLimbCount := by
  refine ⟨fun lw wA wB _ _ => ⟨?_, nl_add_le (one_le_bits lw) wA wB⟩, by decide, by decide, by decide, by decide⟩
  exact max_le (nl_monotone _ (Nat.le_add_right wA wB)) (nl_monotone _ (Nat.le_add_left wB wA))

/-! ## One cell -/

section
variable {L r k a b : Nat} (hr : r < 2 ^ L) (hk : k < 2 ^ L) (ha : a < 2 ^ L) (hb : b < 2 ^ L)
include hr hk ha hb

/-- R184: `(2^L - 1) + (2^L - 1) + (2^L - 1)^2 = 2^(2L) - 1`. -/
theorem add_add_mul_lt_two_pow : r + k + a * b < 2 ^ (2 * L) := by
  obtain ⟨m, hm⟩ := Nat.exists_eq_add_one.mpr (Nat.two_pow_pos L)
  have hprod : a * b ≤ m * m := Nat.mul_le_mul (by omega) (by omega)
  calc r + k + a * b ≤ m + m + m * m := by omega
    _ < (m + 1) * (m + 1) := by rw [Nat.succ_mul, Nat.mul_succ]; omega
    _ = 2 ^ (2 * L) := by rw [two_mul, pow_add, hm]

/-- R184: no narrowing to `2L` bits in the cell loses anything. -/
theorem mulCell_eq_mod_div : mulCell L r k a b = ((r + k + a * b) % 2 ^ L, (r + k + a * b) / 2 ^ L) := by
  have hsum := add_add_mul_lt_two_pow hr hk ha hb
  have hproduct : wide L (a * b) = a * b := Nat.mod_eq_of_lt (by omega)
  have hpartial : wide L (r + k) = r + k := Nat.mod_eq_of_lt (by omega)
  have hwide : wide L (r + k + a * b) = r + k + a * b := Nat.mod_eq_of_lt hsum
  simp only [mulCell, hproduct, hpartial, hwide, lo, hi]

theorem mulCell_exact : (mulCell L r k a b).1 + 2 ^ L * (mulCell L r k a b).2 = r + k + a * b := by
  rw [mulCell_eq_mod_div hr hk ha hb, Nat.mod_add_div]

end

theorem mulCell_carry_lt (L r k a b : Nat) : (mulCell L r k a b).2 < 2 ^ L := hi_wide_lt _ _

/-- Settles O22: the sum of a cell fits `2L` bits, so its high half fits a limb. -/
theorem multiplierCellNeverOverflows : Obligations.MultiplierCellNeverOverflows :=
  fun lw r k a b hr hk ha hb => ⟨Nat.le_sub_one_of_lt (add_add_mul_lt_two_pow hr hk ha hb),
    mulCell_eq_mod_div hr hk ha hb, Nat.le_sub_one_of_lt (mulCell_carry_lt lw.bits r k a b)⟩

/-! ## One row, and the rows together, modulo the length of the result array -/

theorem two_pow_succ_mul (L n : Nat) : 2 ^ ((n + 1) * L) = 2 ^ L * 2 ^ (n * L) := by
  rw [← pow_add, Nat.succ_mul, Nat.add_comm]

/-- R182: a row adds `b * val A` and its incoming carry to the result array. The deposit overwrites its cell, which loses
nothing because the cell is still zero (R186). -/
theorem val_mulRow_modEq {L b : Nat} (hb : b < 2 ^ L) {as rs : List Nat} {k : Nat} (has : ∀ x ∈ as, x < 2 ^ L)
    (hrs : ∀ x ∈ rs, x < 2 ^ L) (hk : k < 2 ^ L) (hzero : ∀ x ∈ rs.drop as.length, x = 0) :
    val L (mulRow L b as rs k) ≡ val L rs + k + b * val L as [MOD 2 ^ (rs.length * L)] := by
  fun_induction mulRow L b as rs k with
  | case1 k => simpa using Nat.modEq_one
  | case2 r rs k =>
    obtain rfl : r = 0 := hzero r List.mem_cons_self
    rw [val_cons, val_cons, val_nil, Nat.mul_zero, Nat.add_zero, Nat.zero_add, Nat.add_comm k]
  | case3 => simpa using Nat.modEq_one
  | case4 a as r rs k c ih =>
    obtain ⟨ha, has⟩ := List.forall_mem_cons.mp has
    obtain ⟨hr, hrs⟩ := List.forall_mem_cons.mp hrs
    have hexact : c.1 + 2 ^ L * c.2 = r + k + a * b := mulCell_exact hr hk ha hb
    have habove := ih has hrs (mulCell_carry_lt L r k a b) hzero
    rw [List.length_cons, two_pow_succ_mul, val_cons, val_cons, val_cons]
    calc c.1 + 2 ^ L * val L (mulRow L b as rs c.2)
        ≡ c.1 + 2 ^ L * (val L rs + c.2 + b * val L as) [MOD 2 ^ L * 2 ^ (rs.length * L)] :=
          (habove.mul_left' _).add_left _
      _ = r + 2 ^ L * val L rs + k + b * (a + 2 ^ L * val L as) := by linear_combination hexact

/-- R186: a row writes nothing above the cell of its deposit. -/
theorem mulRow_drop_above_deposit (L b : Nat) (as rs : List Nat) (k : Nat) :
    (mulRow L b as rs k).drop (as.length + 1) = rs.drop (as.length + 1) := by
  fun_induction mulRow L b as rs k with
  | case1 => rfl
  | case2 => rfl
  | case3 => rfl
  | case4 a as r rs k c ih => exact ih

/-- R182, R185: the rows add `val A * val B` to the result array, as long as every cell that a row will deposit its carry
in is zero before. -/
theorem val_mulRows_modEq {L : Nat} {as bs rs : List Nat} (has : ∀ x ∈ as, x < 2 ^ L) (hbs : ∀ x ∈ bs, x < 2 ^ L)
    (hrs : ∀ x ∈ rs, x < 2 ^ L) (hzero : ∀ x ∈ rs.drop as.length, x = 0) :
    val L (mulRows L as bs rs) ≡ val L rs + val L as * val L bs [MOD 2 ^ (rs.length * L)] := by
  fun_induction mulRows L as bs rs with
  | case1 => rfl
  | case2 b bs rs hrow =>
    have hlen := mulRow_length L b as rs 0
    rw [hrow] at hlen
    simpa [← hlen] using Nat.modEq_one
  | case3 b bs rs r rs' hrow ih =>
    obtain ⟨hb, hbs⟩ := List.forall_mem_cons.mp hbs
    have hlen := mulRow_length L b as rs 0
    have hlimbs := mulRow_limbs_lt (b := b) (as := as) hrs (Nat.two_pow_pos L)
    have hdrop := mulRow_drop_above_deposit L b as rs 0
    have hval := val_mulRow_modEq hb has hrs (Nat.two_pow_pos L) hzero
    rw [hrow] at hlen hlimbs hdrop hval
    have hzero' : ∀ x ∈ rs'.drop as.length, x = 0 := fun x hx =>
      hzero x (List.drop_subset_drop_left rs (Nat.le_succ as.length) (hdrop ▸ hx))
    have habove := ih hbs (List.forall_mem_cons.mp hlimbs).2 hzero'
    rw [← hlen, List.length_cons, two_pow_succ_mul, val_cons] at hval ⊢
    calc r + 2 ^ L * val L (mulRows L as bs rs')
        ≡ r + 2 ^ L * (val L rs' + val L as * val L bs) [MOD 2 ^ L * 2 ^ (rs'.length * L)] :=
          (habove.mul_left' _).add_left _
      _ = r + 2 ^ L * val L rs' + 2 ^ L * (val L as * val L bs) := by ring
      _ ≡ val L rs + 0 + b * val L as + 2 ^ L * (val L as * val L bs) [MOD 2 ^ L * 2 ^ (rs'.length * L)] :=
          hval.add_right _
      _ = val L rs + val L as * val L (b :: bs) := by rw [val_cons]; ring

/-! ## The value law of the product -/

@[simp] theorem mulOf_bw (L : Nat) (a b : WideInt) : (mulOf L a b).bw = a.bw + b.bw := rfl

@[simp] theorem mulOf_limbs_length (L : Nat) (a b : WideInt) : (mulOf L a b).limbs.length = nl L (a.bw + b.bw) := by
  rw [mulOf, mularr, mulRows_length, List.length_replicate]

theorem mulOf_limbs_lt (L : Nat) (a b : WideInt) : ∀ x ∈ (mulOf L a b).limbs, x < 2 ^ L :=
  mulRows_limbs_lt (replicate_zero_limbs_lt _ _)

section
variable {L : Nat} {a b : WideInt} (ha : ∀ x ∈ a.limbs, x < 2 ^ L) (hb : ∀ x ∈ b.limbs, x < 2 ^ L)
include ha hb

/-- R185: the product, for clean and dirty operands; its limbs hold nothing at or above `2^(nr*L)`. -/
theorem val_mulOf :
    val L (mulOf L a b).limbs = (val L a.limbs * val L b.limbs) % 2 ^ (nl L (a.bw + b.bw) * L) := by
  have hlt := val_lt_of_limbs_lt (mulOf_limbs_lt L a b)
  have hmod : val L (mulOf L a b).limbs ≡ _ [MOD _] :=
    val_mulRows_modEq ha hb (replicate_zero_limbs_lt L (nl L (a.bw + b.bw)))
      fun x hx => List.eq_of_mem_replicate (List.mem_of_mem_drop hx)
  rw [mulOf_limbs_length] at hlt
  rw [val_replicate_zero, Nat.zero_add, List.length_replicate] at hmod
  rw [← hmod, Nat.mod_eq_of_lt hlt]

theorem val_mulOf_of_lt (h : val L a.limbs * val L b.limbs < 2 ^ (nl L (a.bw + b.bw) * L)) :
    val L (mulOf L a b).limbs = val L a.limbs * val L b.limbs := by
  rw [val_mulOf ha hb, Nat.mod_eq_of_lt h]

/-- The product as the command states it: its limb count, its limbs and its value. -/
theorem mulOf_limbs_spec :
    (mulOf L a b).limbs.length = nl L (a.bw + b.bw) ∧ (∀ x ∈ (mulOf L a b).limbs, x < 2 ^ L) ∧
      val L (mulOf L a b).limbs =
        (val L a.limbs * val L b.limbs) % 2 ^ ((mulOf L a b).limbs.length * L) := by
  refine ⟨mulOf_limbs_length .., mulOf_limbs_lt L a b, ?_⟩
  rw [mulOf_limbs_length, val_mulOf ha hb]

end

/-- R185: clean operands multiply to a value of `wA + wB` bits. -/
theorem val_mul_lt_of_clean {L : Nat} {a b : WideInt} (ha : a.Clean L) (hb : b.Clean L) :
    val L a.limbs * val L b.limbs < 2 ^ (a.bw + b.bw) := by
  rw [pow_add]
  exact Nat.mul_lt_mul'' ha hb

/-- Settles O25: clean operands leave room for the exact product. -/
theorem productValueLaw : Obligations.ProductValueLaw := by
  refine ⟨fun p a b ⟨_, _, _, hla⟩ ⟨_, _, _, hlb⟩ => ⟨val_mulOf hla hlb, fun hca hcb => ?_⟩, by decide⟩
  have hlt := val_mul_lt_of_clean hca hcb
  have hfits : 2 ^ (a.bw + b.bw) ≤ 2 ^ (nl p.L (a.bw + b.bw) * p.L) := two_pow_le_two_pow_nl (one_le_L p) le_rfl
  have hval := val_mulOf_of_lt hla hlb (hlt.trans_le hfits)
  exact ⟨hlt, hfits, hval, by rwa [WideInt.Clean, hval]⟩

/-! ## The command -/

theorem exec_wmul_of_some {s : State} {ra rb : RegNo} {a b : WideInt} (ha : s.reg ra = some a) (hb : s.reg rb = some b)
    (rd : RegNo) (hfits : a.bw + b.bw ≤ s.params.widthMax) :
    exec (.wmul rd ra rb) s = .next ((s.setReg rd (mulOf s.params.L a b)).consume 0) :=
  (withSources_some ha hb _).trans (checkFits_le hfits _)

/-- Settles O24: the stored limbs are those of the product. -/
theorem wmulStoresTheProduct : Obligations.WmulStoresTheProduct :=
  fun _ rd _ _ _ _ hra hrb ⟨_, _, _, hla⟩ ⟨_, _, _, hlb⟩ hfits =>
    ⟨_, exec_wmul_of_some hra hrb rd hfits, mulOf_limbs_spec hla hlb⟩

/-! ## Symmetry and the product with one -/

/-- As many limbs as are asked for are fixed by the value they stand for. -/
theorem limbs_eq_of_val_eq {L : Nat} {xs ys : List Nat} (hxs : ∀ x ∈ xs, x < 2 ^ L) (hys : ∀ y ∈ ys, y < 2 ^ L)
    (hlen : xs.length = ys.length) (hval : val L xs = val L ys) : xs = ys := by
  refine List.ext_getElem hlen fun i hi hi' => ?_
  rw [← List.getD_eq_getElem xs 0 hi, ← List.getD_eq_getElem ys 0 hi', getD_eq_val_div_mod hxs,
    getD_eq_val_div_mod hys, hval]

/-- Zero limbs at the top add nothing to the value. -/
theorem val_append_replicate_zero (L n : Nat) (xs : List Nat) :
    val L (xs ++ List.replicate n 0) = val L xs := by
  rw [val_append_limbs, val_replicate_zero, Nat.mul_zero, Nat.add_zero]

/-- A product is known from its width, its limb count and its value. -/
theorem mulOf_eq_of_val {L : Nat} {a b v : WideInt} (hbw : a.bw + b.bw = v.bw)
    (hlimbs : ∀ x ∈ v.limbs, x < 2 ^ L) (hlen : nl L (a.bw + b.bw) = v.limbs.length)
    (hval : val L (mulOf L a b).limbs = val L v.limbs) : mulOf L a b = v := by
  have heq := limbs_eq_of_val_eq (mulOf_limbs_lt L a b) hlimbs (by rw [mulOf_limbs_length, hlen]) hval
  cases v
  exact congrArg₂ WideInt.mk hbw heq

/-- R187: the loops run in the other order, the limbs are the same. -/
theorem mulOf_comm {L : Nat} {a b : WideInt} (ha : ∀ x ∈ a.limbs, x < 2 ^ L) (hb : ∀ x ∈ b.limbs, x < 2 ^ L) :
    mulOf L a b = mulOf L b a := by
  have hbw : a.bw + b.bw = b.bw + a.bw := Nat.add_comm ..
  refine mulOf_eq_of_val hbw (mulOf_limbs_lt L b a) (by rw [mulOf_limbs_length, hbw]) ?_
  rw [val_mulOf ha hb, val_mulOf hb ha, hbw, Nat.mul_comm (val L a.limbs)]

/-- R187: a product with one keeps the limbs, and the wider result is filled up with zero limbs. -/
theorem mulOf_one {p : Params} {a : WideInt} (ha : a.Wf p) :
    mulOf p.L a ⟨p.L, [1]⟩ =
      ⟨a.bw + p.L, a.limbs ++ List.replicate (nl p.L (a.bw + p.L) - a.limbs.length) 0⟩ := by
  obtain ⟨-, -, hlen, hlimbs⟩ := ha
  have hone : ∀ x ∈ [1], x < 2 ^ p.L := List.forall_mem_singleton.mpr (carry_lt_two_pow (one_le_L p) le_rfl)
  have hle : a.limbs.length ≤ nl p.L (a.bw + p.L) := by
    rw [hlen]
    exact nl_monotone p.L (Nat.le_add_right ..)
  have hprod : val p.L a.limbs * val p.L [1] = val p.L a.limbs := by simp
  refine mulOf_eq_of_val rfl (List.forall_mem_append.mpr ⟨hlimbs, replicate_zero_limbs_lt _ _⟩) ?_ ?_
  · rw [List.length_append, List.length_replicate, Nat.add_sub_cancel' hle]
  · rw [val_append_replicate_zero, val_mulOf_of_lt hlimbs hone (hprod.trans_lt (val_lt_of_length_le hlimbs hle)), hprod]

/-- Settles O26: symmetry and the product with one follow from the value law. -/
theorem productIsSymmetric : Obligations.ProductIsSymmetric :=
  ⟨fun _ _ _ ha@⟨_, _, _, hla⟩ ⟨_, _, _, hlb⟩ => ⟨mulOf_comm hla hlb, mulOf_one ha⟩, by decide⟩

end Sys2Proof.Machine

/-! SUPPORT. The family 43_equality_promotion: two limb lists agree at every position exactly when they stand for the same
value, because the lowest limb and the value above it are the remainder and the quotient by `2^L`; so `WEQ` and `WEQS`
compare values, and `WPRO` stores the scalar they compare with. -/

namespace Sys2Proof.Machine

/-! ## Agreeing limbs are equal values -/

theorem forall_mem_tail_lt {L : Nat} {xs : List Nat} (h : ∀ x ∈ xs, x < 2 ^ L) : ∀ x ∈ xs.tail, x < 2 ^ L :=
  fun x hx => h x (List.mem_of_mem_tail hx)

/-- The value above the lowest limb is the quotient by `2^L`, and the lowest limb the remainder. -/
theorem val_div_mod {L : Nat} {xs : List Nat} (h : ∀ x ∈ xs, x < 2 ^ L) :
    val L xs / 2 ^ L = val L xs.tail ∧ val L xs % 2 ^ L = xs.headD 0 :=
  (Nat.div_mod_unique (Nat.two_pow_pos L)).mpr ⟨(val_headD_tail L xs).symm, headD_lt_of_limbs_lt h⟩

section
variable {L : Nat} {as bs : List Nat} (has : ∀ x ∈ as, x < 2 ^ L) (hbs : ∀ x ∈ bs, x < 2 ^ L)
include has hbs

theorem val_eq_val_iff :
    val L as = val L bs ↔ as.headD 0 = bs.headD 0 ∧ val L as.tail = val L bs.tail := by
  obtain ⟨hdivA, hmodA⟩ := val_div_mod has
  obtain ⟨hdivB, hmodB⟩ := val_div_mod hbs
  constructor
  · intro h
    exact ⟨by rw [← hmodA, h, hmodB], by rw [← hdivA, h, hdivB]⟩
  · rintro ⟨hhead, htail⟩
    rw [val_headD_tail L as, val_headD_tail L bs, hhead, htail]

/-- R201: comparing enough positions compares the values; a missing limb counts as the 0 it is read as. -/
theorem eqUpTo_iff_val_eq {n : Nat} (hlenA : as.length ≤ n) (hlenB : bs.length ≤ n) :
    eqUpTo n as bs = true ↔ val L as = val L bs := by
  induction n generalizing as bs with
  | zero =>
    obtain rfl := List.eq_nil_of_length_eq_zero (Nat.le_zero.mp hlenA)
    obtain rfl := List.eq_nil_of_length_eq_zero (Nat.le_zero.mp hlenB)
    simp [eqUpTo]
  | succ n ih =>
    have htails := ih (forall_mem_tail_lt has) (forall_mem_tail_lt hbs) (as := as.tail) (bs := bs.tail)
      (by rw [List.length_tail]; omega) (by rw [List.length_tail]; omega)
    rw [eqUpTo, Bool.and_eq_true, beq_iff_eq, htails, val_eq_val_iff has hbs]

end

theorem eqWide_iff_val_eq {L : Nat} {a b : WideInt} (ha : ∀ x ∈ a.limbs, x < 2 ^ L) (hb : ∀ x ∈ b.limbs, x < 2 ^ L) :
    eqWide a b = true ↔ val L a.limbs = val L b.limbs :=
  eqUpTo_iff_val_eq ha hb (Nat.le_max_left ..) (Nat.le_max_right ..)

/-! ## The scalar and its promotion -/

theorem val_singleton (L x : Nat) : val L [x] = x := by simp

theorem promote_limbs_lt {L x : Nat} (hx : x < 2 ^ L) : ∀ y ∈ (promote L x).limbs, y < 2 ^ L :=
  List.forall_mem_singleton.mpr hx

theorem eqScalar_iff_limbs {a : WideInt} {x : Nat} :
    eqScalar a x = true ↔ a.limbs.headD 0 = x ∧ ∀ y ∈ a.limbs.tail, y = 0 := by
  simp [eqScalar]

section
variable {L : Nat} {a : WideInt} {x : Nat} (ha : ∀ y ∈ a.limbs, y < 2 ^ L) (hx : x < 2 ^ L)
include ha hx

/-- R203: the limbs ask for the head and the tail of `promote(s)`, whose tail stands for 0. -/
theorem eqScalar_iff_val_eq : eqScalar a x = true ↔ val L a.limbs = x := by
  have hlimbs := val_eq_val_iff ha (promote_limbs_lt hx)
  have htail : val L (promote L x).limbs.tail = 0 := val_nil L
  rw [htail, val_eq_zero_iff] at hlimbs
  calc eqScalar a x = true
      ↔ a.limbs.headD 0 = x ∧ ∀ y ∈ a.limbs.tail, y = 0 := eqScalar_iff_limbs
    _ ↔ val L a.limbs = val L [x] := hlimbs.symm
    _ ↔ val L a.limbs = x := by rw [val_singleton]

theorem eqScalar_eq_eqWide_promote : eqScalar a x = eqWide a (promote L x) := by
  rw [Bool.eq_iff_iff, eqScalar_iff_val_eq ha hx, eqWide_iff_val_eq ha (promote_limbs_lt hx), promote, val_singleton]

end

/-- Settles O29: both comparisons are the comparison of the value with the scalar. -/
theorem scalarEqualityIsPromotedEquality : Obligations.ScalarEqualityIsPromotedEquality :=
  fun _ _ _ ⟨_, _, _, ha⟩ hx =>
    ⟨eqScalar_iff_limbs, eqScalar_eq_eqWide_promote ha hx, eqScalar_iff_val_eq ha hx⟩

/-! ## The commands -/

theorem exec_weq_of_some {s : State} {ra rb : RegNo} {a b : WideInt} (ha : s.reg ra = some a)
    (hb : s.reg rb = some b) : exec (.weq ra rb) s = .next ((s.setEq (eqWide a b)).consume 0) :=
  withSources_some ha hb _

section
variable {s : State} {x : Nat} (hx : x < 2 ^ s.params.L)
include hx

/-- One arrived limb word passes the payload check (R85, R269). -/
theorem withPayload_limb (k : List Word → Result) :
    withPayload s 1 (limbWordOk s.params.L) [BitVec.ofNat 32 x] k = k [BitVec.ofNat 32 x] := by
  have hok : [BitVec.ofNat 32 x].all (limbWordOk s.params.L) = true :=
    limbWords_ok (limbs := [x]) (List.forall_mem_singleton.mpr hx)
  rw [withPayload_full List.length_singleton, if_pos hok]

theorem exec_weqs_of_some {ra : RegNo} {a : WideInt} (ha : s.reg ra = some a) :
    exec (.weqs ra [BitVec.ofNat 32 x]) s = .next ((s.setEq (eqScalar a x)).consume 1) := by
  rw [exec, execWeqs, withSource_some ha, withPayload_limb hx, List.headD_cons, limbOfWord_ofNat hx, finishEq]

theorem exec_wpro_of_limb (rd : RegNo) :
    exec (.wpro rd [BitVec.ofNat 32 x]) s = .next ((s.setReg rd (promote s.params.L x)).consume 1) := by
  rw [exec, execWpro, withPayload_limb hx, List.headD_cons, limbOfWord_ofNat hx, finishReg]

end

/-- Settles O27: the comparison of all limbs is that of the values. -/
theorem weqComparesValues : Obligations.WeqComparesValues := by
  intro s ra rb a b hra hrb ⟨_, _, _, ha⟩ ⟨_, _, _, hb⟩
  have heq : eqWide a b = decide (val s.params.L a.limbs = val s.params.L b.limbs) :=
    Bool.eq_iff_iff.mpr ((eqWide_iff_val_eq ha hb).trans decide_eq_true_iff.symm)
  rw [exec_weq_of_some hra hrb, heq]
  rfl

/-- Settles O28: the comparison with the scalar is that of the value with it. -/
theorem weqsComparesWithTheScalar : Obligations.WeqsComparesWithTheScalar := by
  intro s ra a x hra ⟨_, _, _, ha⟩ hx
  have heq : eqScalar a x = decide (val s.params.L a.limbs = x) :=
    Bool.eq_iff_iff.mpr ((eqScalar_iff_val_eq ha hx).trans decide_eq_true_iff.symm)
  rw [exec_weqs_of_some hx hra, heq]
  rfl

/-- Settles O30: the one limb is the whole value, and it has `L` bits. -/
theorem wproStoresThePromotedScalar : Obligations.WproStoresThePromotedScalar := by
  intro s rd x hx
  refine ⟨exec_wpro_of_limb hx rd, ?_, val_singleton ..⟩
  rwa [WideInt.Clean, val_singleton]

/-- Every named constant fits the narrowest limb (R9, R207). -/
theorem namedConstValue_lt_two_pow (k : NamedConst) (p : Params) : namedConstValue k < 2 ^ p.L :=
  calc namedConstValue k < 2 ^ 8 := by cases k <;> decide
    _ ≤ 2 ^ p.L := Nat.pow_le_pow_right two_pos (L_bounds p).1

/-- `WCONST` is `WPRO` of the constant, which every limb width has room for (R92, R207). -/
theorem exec_wconst (s : State) (rd : RegNo) (k : NamedConst) :
    exec (wconst rd k) s = .next ((s.setReg rd (promote s.params.L (namedConstValue k))).consume 1) :=
  exec_wpro_of_limb (namedConstValue_lt_two_pow k s.params) rd

/-- Settles O31: the table lists each constant with its value. -/
theorem namedConstantsArePromotedScalars : Obligations.NamedConstantsArePromotedScalars := by
  intro s rd e he
  have hvalue : e.2 = namedConstValue e.1 := by
    fin_cases he <;> rfl
  rw [hvalue]
  exact ⟨rfl, exec_wconst s rd e.1⟩

end Sys2Proof.Machine

/-! SUPPORT. The family 44_radix: the cell of the multiply step is exact (R232), the add step is the multiply step for
radix 1 with the digit as its carry, so the accumulator is Horner's method modulo `2^(nr*L)` (R229); the estimated width
has room for every sequence of valid digits (R230), and `WRDX` stores the accumulator (R231, R234). -/

namespace Sys2Proof.Machine

/-! ## The supported radices and the estimated width -/

/-- No supported radix exceeds 64, so every digit below one is a 6-bit digit (R13, R221). -/
theorem radix_bounds {radix : Nat} (h : radix ∈ [8, 10, 16, 64]) : 1 < radix ∧ radix ≤ 64 := by
  revert radix
  decide

/-- The narrowest limb has room for every 6-bit digit and every supported radix (R9, R13). -/
theorem sixtyFour_le_two_pow_bits (lw : LimbWidth) : 64 ≤ 2 ^ lw.bits := by
  cases lw <;> decide

theorem est_eq_none {radix : Nat} (h : radix ∉ [8, 10, 16, 64]) (n : Nat) : est radix n = none := by
  simp only [List.mem_cons, List.not_mem_nil, or_false, not_or] at h
  obtain ⟨h8, h10, h16, h64⟩ := h
  rw [est, if_neg h8, if_neg h10, if_neg h16, if_neg h64]

theorem radix_mem_of_est {radix n w : Nat} (h : est radix n = some w) : radix ∈ [8, 10, 16, 64] := by
  by_contra hr
  rw [est_eq_none hr] at h
  cases h

/-- Settles O32: each radix has its own branch of `est`, and the listed values are small. -/
theorem widthEstimates : Obligations.WidthEstimates :=
  ⟨fun _ => ⟨rfl, rfl, rfl, rfl⟩, fun _ n h => est_eq_none h n, by decide⟩

/-! ## One cell of the converter -/

/-- R226 is R225 with radix 1: narrowing the limb before the carry is added loses nothing of the narrowed sum. -/
theorem radixAddCell_eq_radixMulCell_one (L x c : Nat) : radixAddCell L x c = radixMulCell L 1 x c := by
  simp [radixAddCell, radixMulCell, wide]

/-- A cell whose exact product fits `2L` bits is split without loss (R232). -/
theorem radixMulCell_eq_mod_div {L radix x c : Nat} (h : x * radix + c < 2 ^ (2 * L)) :
    radixMulCell L radix x c = ((x * radix + c) % 2 ^ L, (x * radix + c) / 2 ^ L) := by
  have hproduct : wide L (x * radix) = x * radix := Nat.mod_eq_of_lt (by omega)
  have hsum : wide L (x * radix + c) = x * radix + c := Nat.mod_eq_of_lt h
  simp only [radixMulCell, hproduct, hsum, lo, hi]

theorem radixMulCell_carry_lt (L radix x c : Nat) : (radixMulCell L radix x c).2 < 2 ^ L := hi_wide_lt _ _

/-- `(m - 1) * radix + (radix - 1) = radix * m - 1`. -/
theorem mul_add_lt_mul_of_lt {m radix x c : Nat} (hx : x < m) (hc : c < radix) : x * radix + c < radix * m :=
  calc x * radix + c < (x + 1) * radix := by rw [Nat.succ_mul]; omega
    _ ≤ m * radix := Nat.mul_le_mul_right radix hx
    _ = radix * m := Nat.mul_comm ..

theorem radix_mul_two_pow_le {L radix : Nat} (hr : radix ≤ 2 ^ L) : radix * 2 ^ L ≤ 2 ^ (2 * L) := by
  rw [two_mul, pow_add]
  exact Nat.mul_le_mul_right _ hr

/-- A limb times a radix of at most `2^L` leaves room for a carry of one limb. -/
theorem mul_radix_add_lt_two_pow {L radix x c : Nat} (hr : radix ≤ 2 ^ L) (hx : x < 2 ^ L) (hc : c < 2 ^ L) :
    x * radix + c < 2 ^ (2 * L) :=
  calc x * radix + c ≤ x * 2 ^ L + c := Nat.add_le_add_right (Nat.mul_le_mul_left x hr) c
    _ < 2 ^ L * 2 ^ L := mul_add_lt_mul_of_lt hx hc
    _ ≤ 2 ^ (2 * L) := radix_mul_two_pow_le le_rfl

/-- Settles O33: both cells are the multiply cell, and its carry is the quotient of a bounded sum. -/
theorem converterCellsNeverOverflow : Obligations.ConverterCellsNeverOverflow := by
  intro lw radix hradix x c hx
  obtain ⟨hpos, hle⟩ := radix_bounds hradix
  have h64 := sixtyFour_le_two_pow_bits lw
  have hwide := radix_mul_two_pow_le (hle.trans h64)
  refine ⟨fun hc => ?_, fun hc => ?_⟩
  · have hproduct : x * radix + c < radix * 2 ^ lw.bits := mul_add_lt_mul_of_lt hx (by omega)
    have hcell := radixMulCell_eq_mod_div (hproduct.trans_le hwide)
    refine ⟨Nat.le_sub_one_of_lt hproduct, Nat.sub_le_sub_right hwide 1, hcell, Nat.le_sub_one_of_lt ?_⟩
    rw [hcell]
    exact Nat.div_lt_of_lt_mul (by rwa [Nat.mul_comm (2 ^ lw.bits)])
  · have hsum : x * 1 + c < 2 ^ (2 * lw.bits) := mul_radix_add_lt_two_pow (by omega) hx (by omega)
    have hcell := radixMulCell_eq_mod_div hsum
    rw [radixAddCell_eq_radixMulCell_one]
    rw [Nat.mul_one] at hsum hcell
    refine ⟨hsum, hcell, Nat.le_of_lt_succ ?_⟩
    rw [hcell]
    exact Nat.div_lt_of_lt_mul (by omega)

/-! ## The two steps modulo `2^(nr*L)` -/

/-- R225: the lowest limb and its carry are the remainder and the quotient of the exact product by `2^L`, and the limbs
above take that carry. -/
theorem val_mulStep {L radix : Nat} (hr : radix ≤ 2 ^ L) {acc : List Nat} (hacc : ∀ x ∈ acc, x < 2 ^ L) {c : Nat}
    (hc : c < 2 ^ L) : val L (mulStep L radix acc c) = (val L acc * radix + c) % 2 ^ (acc.length * L) := by
  induction acc generalizing c with
  | nil => simp [mulStep, Nat.mod_one]
  | cons x xs ih =>
    obtain ⟨hx, hxs⟩ := List.forall_mem_cons.mp hacc
    have hcell := radixMulCell_eq_mod_div (mul_radix_add_lt_two_pow hr hx hc)
    have habove := ih hxs (radixMulCell_carry_lt L radix x c)
    have hsplit : val L (x :: xs) * radix + c = x * radix + c + 2 ^ L * (val L xs * radix) := by
      rw [val_cons]
      ring
    rw [mulStep, val_cons, habove, hcell, hsplit, List.length_cons, two_pow_succ_mul, Nat.mod_mul,
      Nat.add_mul_mod_self_left, Nat.add_mul_div_left _ _ (Nat.two_pow_pos L), Nat.add_comm (val L xs * radix)]

theorem addDigit_eq_mulStep_one (L : Nat) (acc : List Nat) (c : Nat) : addDigit L acc c = mulStep L 1 acc c := by
  induction acc generalizing c with
  | nil => rfl
  | cons x xs ih => simp only [addDigit, mulStep, radixAddCell_eq_radixMulCell_one, ih]

theorem val_addDigit {L : Nat} {acc : List Nat} (hacc : ∀ x ∈ acc, x < 2 ^ L) {d : Nat} (hd : d < 2 ^ L) :
    val L (addDigit L acc d) = (val L acc + d) % 2 ^ (acc.length * L) := by
  rw [addDigit_eq_mulStep_one, val_mulStep Nat.one_le_two_pow hacc hd, Nat.mul_one]

/-- R227: one digit of Horner's method. -/
theorem val_radixStep {L radix : Nat} (hr : radix ≤ 2 ^ L) {acc : List Nat} (hacc : ∀ x ∈ acc, x < 2 ^ L) {d : Nat}
    (hd : d < 2 ^ L) : val L (radixStep L radix acc d) = (val L acc * radix + d) % 2 ^ (acc.length * L) := by
  rw [radixStep, val_addDigit (mulStep_limbs_lt L radix acc 0) hd, val_mulStep hr hacc (Nat.two_pow_pos L),
    mulStep_length, Nat.add_zero, Nat.mod_add_mod]

/-! ## The whole construction -/

@[simp] theorem digitsValue_nil (radix : Nat) : digitsValue radix [] = 0 := rfl

/-- One more digit behind the others: they move up by one place (R229). -/
theorem digitsValue_append_singleton (radix : Nat) (ds : List Nat) (d : Nat) :
    digitsValue radix (ds ++ [d]) = digitsValue radix ds * radix + d := by
  have hplace : ∀ t ∈ Finset.range ds.length,
      (ds ++ [d]).getD t 0 * radix ^ (ds.length - t) = ds.getD t 0 * radix ^ (ds.length - 1 - t) * radix := by
    intro t ht
    have hlt := Finset.mem_range.mp ht
    rw [List.getD_append _ _ _ _ hlt, Nat.mul_assoc, ← pow_succ, show ds.length - 1 - t + 1 = ds.length - t by omega]
  simp only [digitsValue, List.length_append, List.length_singleton, Nat.add_sub_cancel]
  rw [Finset.sum_range_succ, Finset.sum_congr rfl hplace, ← Finset.sum_mul]
  simp

/-- The value of R229, most significant digit first, is the library's of the reversed sequence. -/
theorem digitsValue_eq_ofDigits (radix : Nat) (ds : List Nat) :
    digitsValue radix ds = Nat.ofDigits radix ds.reverse := by
  induction ds using List.reverseRecOn with
  | nil => rfl
  | append_singleton ds d ih =>
    rw [digitsValue_append_singleton, ih, List.reverse_concat, Nat.ofDigits_cons, Nat.mul_comm, Nat.add_comm]

theorem rdx_append_singleton (L radix nr : Nat) (ds : List Nat) (d : Nat) :
    rdx L radix nr (ds ++ [d]) = radixStep L radix (rdx L radix nr ds) d :=
  List.foldl_concat ..

/-- R229: the accumulator is Horner's method modulo `2^(nr*L)`. -/
theorem val_rdx {L radix : Nat} (hr : radix ≤ 2 ^ L) (nr : Nat) {ds : List Nat} (hds : ∀ d ∈ ds, d < 2 ^ L) :
    val L (rdx L radix nr ds) = digitsValue radix ds % 2 ^ (nr * L) := by
  induction ds using List.reverseRecOn with
  | nil => simp [rdx]
  | append_singleton ds d ih =>
    obtain ⟨hds, hd⟩ := List.forall_mem_append.mp hds
    rw [rdx_append_singleton, val_radixStep hr (rdx_limbs_lt L radix nr ds) (hd d List.mem_cons_self), rdx_length,
      ih hds, digitsValue_append_singleton, Nat.add_mod, Nat.mod_mul_mod, ← Nat.add_mod]

/-- Settles O34: a prefix of a digit sequence is a digit sequence. -/
theorem converterIsHornersMethod : Obligations.ConverterIsHornersMethod := by
  intro lw radix hradix
  have h64 := sixtyFour_le_two_pow_bits lw
  have hr : radix ≤ 2 ^ lw.bits := (radix_bounds hradix).2.trans h64
  refine ⟨fun nr ds hds t _ => ⟨rdx_length .., ?_⟩, fun acc hacc => ⟨?_, fun d hd => ?_⟩⟩
  · exact val_rdx hr nr fun d hd => (hds d (List.mem_of_mem_take hd)).trans_le h64
  · exact val_mulStep hr hacc (Nat.two_pow_pos _)
  · exact val_addDigit hacc (hd.trans_le h64)

/-! ## The estimated width has room for every valid digit sequence -/

theorem digitsValue_lt_pow {radix : Nat} (hr : 1 < radix) {ds : List Nat} (hds : ∀ d ∈ ds, d < radix) :
    digitsValue radix ds < radix ^ ds.length := by
  rw [digitsValue_eq_ofDigits, ← List.length_reverse]
  exact Nat.ofDigits_lt_base_pow_length hr (by simpa using hds)

/-- `28738 / 8651` is above `log2(10)`. The exponents are split so that Lean computes every power. -/
theorem ten_pow_lt_two_pow_28738 : 10 ^ 8651 < 2 ^ 28738 :=
  calc 10 ^ 8651 = (10 ^ 211) ^ 41 := pow_mul 10 211 41
    _ < (2 ^ 169) ^ 170 * 2 ^ 8 := by decide
    _ = 2 ^ 28738 := by rw [← pow_mul, ← pow_add]

/-- With `P / Q` above `log2(10)`, a power of two below a power of ten has its exponents on the near side of `P / Q`. -/
theorem mul_lt_mul_of_two_pow_lt_ten_pow {P Q k n : Nat} (hPQ : 10 ^ Q < 2 ^ P) (hQ : Q ≠ 0) (h : 2 ^ k < 10 ^ n) :
    Q * k < P * n := by
  have hn : n ≠ 0 := by
    rintro rfl
    exact absurd h (Nat.not_lt.mpr Nat.one_le_two_pow)
  rw [← Nat.pow_lt_pow_iff_right one_lt_two]
  calc 2 ^ (Q * k) = (2 ^ k) ^ Q := pow_mul' ..
    _ < (10 ^ n) ^ Q := Nat.pow_lt_pow_left h hQ
    _ = (10 ^ Q) ^ n := pow_right_comm ..
    _ < (2 ^ P) ^ n := Nat.pow_lt_pow_left hPQ hn
    _ = 2 ^ (P * n) := (pow_mul ..).symm

/-- R230 for radix 10. The document's literal lies between `42039 / 12655` and `28738 / 8651`. These two are so close
that a fraction strictly between them has a denominator of at least `12655 + 8651`, more digits than the block accepts;
so no `k` above `n` times the literal leaves `2^k` below `10^n`. -/
theorem ten_pow_le_two_pow_est {n k : Nat} (hk : k = 1 + n * log2TenNum / log2TenDen) (hle : k ≤ 65535) :
    10 ^ n ≤ 2 ^ k := by
  by_contra hlt
  have habove := mul_lt_mul_of_two_pow_lt_ten_pow ten_pow_lt_two_pow_28738 (by decide) (Nat.lt_of_not_le hlt)
  rw [log2TenNum, log2TenDen] at hk
  have hbelow : 42039 * n < 12655 * k := by omega
  have hn : n < 12655 + 8651 := by omega
  omega

/-- R230: in each supported radix the estimated width holds every number of `n` digits. -/
theorem pow_le_two_pow_est {radix n w : Nat} (h : est radix n = some w) (hle : w ≤ 65535) : radix ^ n ≤ 2 ^ w := by
  have hradix := radix_mem_of_est h
  simp only [List.mem_cons, List.not_mem_nil, or_false] at hradix
  obtain rfl | rfl | rfl | rfl := hradix <;> cases h
  · exact (pow_mul 2 3 n).ge
  · exact ten_pow_le_two_pow_est rfl hle
  · exact (pow_mul 2 4 n).ge
  · exact (pow_mul 2 6 n).ge

/-- Settles O36: the digits' value is below `radix^n`, so it fits the estimated width, and the converter's modulus is no
smaller. -/
theorem validDigitsConvertExactly : Obligations.ValidDigitsConvertExactly := by
  intro p radix w ds hp hest hw hds
  have hradix := radix_mem_of_est hest
  obtain ⟨hgt, hle⟩ := radix_bounds hradix
  have hr : radix ≤ 2 ^ p.L := hle.trans (sixtyFour_le_two_pow_bits p.limbW)
  have hvalue := digitsValue_lt_pow hgt hds
  have hpow : radix ^ ds.length ≤ 2 ^ w := pow_le_two_pow_est hest (hw.trans hp.2)
  have hfits := two_pow_le_two_pow_nl (one_le_L p) (le_refl w)
  have hval : val p.L (rdx p.L radix (nl p.L w) ds) = digitsValue radix ds := by
    rw [val_rdx hr _ fun d hd => (hds d hd).trans_le hr,
      Nat.mod_eq_of_lt (hvalue.trans_le (hpow.trans hfits))]
  refine ⟨Nat.le_sub_one_of_lt hvalue, ?_, hval, ?_⟩
  · exact (Nat.sub_one_lt (Nat.ne_of_gt (Nat.zero_lt_of_lt hvalue))).trans_le hpow
  · rw [WideInt.Clean, hval]
    exact hvalue.trans_le hpow

/-! ## The command -/

theorem toNat_ofNat_of_digit {d : Nat} (h : d < 64) : (BitVec.ofNat 32 d).toNat = d := by
  rw [BitVec.toNat_ofNat, Nat.mod_eq_of_lt (h.trans (by decide))]

/-- A digit word is a limb word of `DIGIT_W` bits (R85). -/
theorem digitWordOk_ofNat {d : Nat} (h : d < 64) : digitWordOk (BitVec.ofNat 32 d) = true :=
  limbWordOk_iff.mpr ((toNat_ofNat_of_digit h).trans_lt h)

theorem digitOfWord_ofNat {d : Nat} (h : d < 64) : digitOfWord (BitVec.ofNat 32 d) = d := by
  rw [digitOfWord, toNat_ofNat_of_digit h]
  exact Nat.mod_eq_of_lt h

section
variable {ds : List Nat} (h : ∀ d ∈ ds, d < 64)
include h

theorem digitWords_ok : (ds.map (BitVec.ofNat 32)).all digitWordOk = true := by
  simpa using fun d hd => digitWordOk_ofNat (h d hd)

theorem digitWords_map_digitOfWord : (ds.map (BitVec.ofNat 32)).map digitOfWord = ds := by
  rw [List.map_map]
  exact (List.map_congr_left fun d hd => digitOfWord_ofNat (h d hd)).trans ds.map_id

end

section
variable {s : State} {radix : BitVec 8} {n : BitVec 16} {w : Nat}

/-- What `WRDX` does once the radix is known to be supported and so has an estimated width (R231). -/
theorem exec_wrdx_of_est (h : est radix.toNat n.toNat = some w) (rd : RegNo) (ws : List Word) :
    exec (.wrdx rd radix n ws) s = checkNonzero s w (checkFits s w (withPayload s n.toNat digitWordOk ws fun us =>
      finishReg s rd ⟨w, rdx s.params.L radix.toNat (nl s.params.L w) (us.map digitOfWord)⟩ n.toNat)) := by
  rw [exec, execWrdx, h]

/-- `WRDX` of as many digits as it asks for passes every check and stores the accumulator. -/
theorem exec_wrdx_of_digits (hest : est radix.toNat n.toNat = some w) (hpos : 1 ≤ w) (hfits : w ≤ s.params.widthMax)
    {ds : List Nat} (hlen : ds.length = n.toNat) (hds : ∀ d ∈ ds, d < 64) (rd : RegNo) :
    exec (.wrdx rd radix n (ds.map (BitVec.ofNat 32))) s =
      .next ((s.setReg rd ⟨w, rdx s.params.L radix.toNat (nl s.params.L w) ds⟩).consume n.toNat) := by
  have hwords : (ds.map (BitVec.ofNat 32)).length = n.toNat := by rwa [List.length_map]
  rw [exec_wrdx_of_est hest, checkNonzero_pos hpos, checkFits_le hfits, withPayload_full hwords,
    if_pos (digitWords_ok hds), digitWords_map_digitOfWord hds, finishReg]

theorem exec_wrdx_of_est_zero (h : est radix.toNat n.toNat = some 0) (rd : RegNo) (ws : List Word) :
    exec (.wrdx rd radix n ws) s = reject s .zeroWidth := by
  rw [exec_wrdx_of_est h, checkNonzero_zero]

end

/-- Settles O35: the stored limbs are the accumulator's, whose exactness is that of the conversion. -/
theorem wrdxStoresTheConvertedValue : Obligations.WrdxStoresTheConvertedValue := by
  intro s rd radix n ds w hp hest hpos hfits hlen hds
  refine ⟨_, exec_wrdx_of_digits hest hpos hfits hlen hds rd, rfl, rdx_length .., rdx_limbs_lt _ _ _ _,
    fun hvalid => ?_⟩
  rw [← hlen] at hest
  obtain ⟨-, -, hval, hclean⟩ := validDigitsConvertExactly s.params radix.toNat w ds hp hest hfits hvalid
  exact ⟨hval, hclean⟩

theorem rejectedWith_reject (s : State) (c : Cause) : RejectedWith s c (reject s c) :=
  ⟨_, rfl, rfl, rfl, rfl, rfl, rfl, rfl, rfl⟩

/-- The shortest width takes one limb. -/
theorem nl_one {L : Nat} (hL : 1 ≤ L) : nl L 1 = 1 := by
  rw [nl, Nat.add_sub_cancel_left, Nat.div_self hL]

/-- Settles O37: without digits the estimate alone decides, and the accumulator is still its zero limbs. -/
theorem emptyDigitSequence : Obligations.EmptyDigitSequence := by
  intro s rd hp
  have hfits : 1 ≤ s.params.widthMax := (one_le_L s.params).trans (L_le_widthMax hp)
  have hreject : ∀ radix : BitVec 8, est radix.toNat (0 : BitVec 16).toNat = some 0 →
      RejectedWith s .zeroWidth (exec (.wrdx rd radix 0 []) s) := by
    intro radix h
    rw [exec_wrdx_of_est_zero h]
    exact rejectedWith_reject s _
  refine ⟨by decide, hreject 8 (by decide), hreject 16 (by decide), hreject 64 (by decide), ?_⟩
  have hexec := exec_wrdx_of_digits (s := s) (radix := 10) (n := 0) (ds := []) (w := 1) rfl le_rfl hfits rfl
    (by simp) rd
  rw [nl_one (one_le_L s.params)] at hexec
  exact hexec

end Sys2Proof.Machine

/-! SUPPORT. The family 45_system: the control register numbers are 0, 1 and 2 (`csr_cases`), so `SGET` appends the register's
word or is rejected, and each of the three words is read as a number. -/

namespace Sys2Proof.Machine

/-! ## `STATUS` and `HBR` as numbers -/

/-- While the block runs, `EQ` is the only bit of `STATUS` that varies (R250). -/
theorem statusWord_toNat_of_running {s : State} (hr : s.rej = false) (hc : s.cause = 0#4) :
    s.statusWord.toNat = if s.eqFlag then 1 else 0 := by
  rw [State.statusWord, hr, hc]
  cases s.eqFlag <;> rfl

theorem hbrWord_toNat (s : State) : s.hbrWord.toNat = s.hbr.toNat :=
  BitVec.toNat_setWidth_of_le (by decide)

/-! ## The command -/

theorem csr_of_two_lt (s : State) {n : Nat} (h : 2 < n) : s.csr n = none := by
  obtain ⟨rfl, _⟩ | ⟨rfl, _⟩ | ⟨rfl, _⟩ | ⟨_, e⟩ := csr_cases s n
  · contradiction
  · contradiction
  · contradiction
  · exact e

theorem exec_sget_of_some {s : State} {csr : BitVec 16} {w : Word} (h : s.csr csr.toNat = some w) :
    exec (.sget csr) s = .next ((s.outWrite [w]).consume 0) := by
  rw [exec, execSget, h]
  rfl

/-- `SGET` of an unassigned number is rejected (R264). -/
theorem exec_sget_of_two_lt (s : State) {csr : BitVec 16} (h : 2 < csr.toNat) :
    exec (.sget csr) s = reject s .badCsr := by
  rw [exec, execSget, csr_of_two_lt s h]

/-- Settles O38: the number selects the word, and each word has its reading as a number. -/
theorem sgetAppendsTheControlRegister : Obligations.SgetAppendsTheControlRegister := by
  intro s csr hp hr hc
  refine ⟨fun h => ?_, fun h => ?_⟩
  · rw [exec_sget_of_two_lt s h]
    exact rejectedWith_reject s _
  · obtain ⟨hn, e⟩ | ⟨hn, e⟩ | ⟨hn, e⟩ | ⟨hn, _⟩ := csr_cases s csr.toNat
    · exact ⟨_, exec_sget_of_some e, fun _ => statusWord_toNat_of_running hr hc, by omega, by omega⟩
    · exact ⟨_, exec_sget_of_some e, by omega, fun _ => hbrWord_toNat s, by omega⟩
    · exact ⟨_, exec_sget_of_some e, by omega, by omega, fun _ => cfgWord_toNat hp⟩
    · omega

end Sys2Proof.Machine

/-! SUPPORT. The family 60_exceptions: a command is rejected for the lowest-numbered condition of R261's table that it
meets and for nothing else (`rejectedWith_exec_iff`), because every check of `exec` stands for one condition and the
checks come in the order of the causes. The statements about single causes are read from it. -/

namespace Sys2Proof.Machine

/-! ## The answer of a reject -/

theorem causeCode_toNat_inj {c d : Cause} (h : (causeCode c).toNat = (causeCode d).toNat) : c = d := by
  cases c <;> cases d <;> simp [causeCode] at h ⊢

theorem rejectedWith_reject_iff {s : State} {c d : Cause} : RejectedWith s c (reject s d) ↔ c = d := by
  constructor
  · rintro ⟨t, ht, _, hcause, _⟩
    cases ht
    exact causeCode_toNat_inj (congrArg BitVec.toNat hcause.symm)
  · rintro rfl
    exact rejectedWith_reject s c

theorem not_rejectedWith_next {s u : State} (hu : u.rej = false) (c : Cause) : ¬ RejectedWith s c (.next u) := by
  rintro ⟨t, ht, hrej, _⟩
  cases ht
  simp [hu] at hrej

/-! ## The conditions of R261's table that a command meets -/

/-- No condition with a number below that of `c` is met. -/
def NoneBelow (s : State) (i : Instr) (c : Cause) : Prop :=
  ∀ d, Meets s i d → (causeCode c).toNat ≤ (causeCode d).toNat

/-- The payload is there, and a word the command takes of it has a 1 in a must-be-zero bit (R269). For a complete
command this is the condition of `BAD_PAYLOAD`. -/
def TakesBadPayload (s : State) (i : Instr) : Prop :=
  payloadLength s.params.L i ≤ (payloadOf i).length ∧
  ∃ w ∈ (payloadOf i).take (payloadLength s.params.L i), w >>> dataBits s.params.L i ≠ 0#32

/-- The cause is the lowest-numbered one the command meets; `BAD_PAYLOAD` is met only by a payload that is there. -/
def Raises (s : State) (i : Instr) (c : Cause) : Prop :=
  LowestMet s i c ∧ (c = .badPayload → TakesBadPayload s i)

section
variable {s : State} {i : Instr}

theorem lowestMet_unique {c d : Cause} (hc : LowestMet s i c) (hd : LowestMet s i d) : c = d :=
  causeCode_toNat_inj (le_antisymm (hc.2 d hd.1) (hd.2 c hc.1))

theorem meets_badPayload_of_takes (h : TakesBadPayload s i) : Meets s i .badPayload := by
  obtain ⟨_, w, hw, hbad⟩ := h
  exact ⟨w, List.mem_of_mem_take hw, hbad⟩

/-- A complete command takes its whole payload. -/
theorem takesBadPayload_of_wellFormed (hwf : i.WellFormed s.params.L = true) (h : Meets s i .badPayload) :
    TakesBadPayload s i := by
  have hlen := wellFormed_iff.mp hwf
  obtain ⟨w, hw, hbad⟩ := h
  exact ⟨hlen.ge, w, by rwa [List.take_of_length_le hlen.le], hbad⟩

/-- `BAD_PAYLOAD` has the highest number. -/
theorem noneBelow_badPayload_iff :
    NoneBelow s i .badPayload ↔ ∀ c, c ≠ .badPayload → ¬ Meets s i c := by
  constructor
  · intro h c hc hm
    exact hc (causeCode_toNat_inj (le_antisymm (causeCode_bounds c).2 (h c hm)))
  · intro h c hm
    by_cases hc : c = .badPayload
    · rw [hc]
    · exact absurd hm (h c hc)

theorem not_raises_of_noneBelow (hbelow : NoneBelow s i .badPayload) (hpay : ¬ TakesBadPayload s i) (c : Cause) :
    ¬ Raises s i c := by
  rintro ⟨⟨hm, _⟩, htakes⟩
  by_cases hc : c = .badPayload
  · exact hpay (htakes hc)
  · exact noneBelow_badPayload_iff.mp hbelow c hc hm

theorem raises_iff_of_wellFormed (hwf : i.WellFormed s.params.L = true) {c : Cause} :
    Raises s i c ↔ LowestMet s i c := by
  refine ⟨fun h => h.1, fun h => ⟨h, ?_⟩⟩
  rintro rfl
  exact takesBadPayload_of_wellFormed hwf h.1

/-! ### One cause after the other: which commands meet no condition with a lower number -/

theorem noneBelow_badCsr : NoneBelow s i .badCsr := by
  intro d hd
  cases d with
  | illegalOpcode | reservedNonzero => exact hd.elim
  | _ => decide

/-- A condition that is not met leaves the one with the next number. -/
theorem NoneBelow.next {c d : Cause} (h : NoneBelow s i c) (hc : ¬ Meets s i c)
    (hd : (causeCode d).toNat = (causeCode c).toNat + 1) : NoneBelow s i d := by
  intro e he
  have hne : (causeCode c).toNat ≠ (causeCode e).toNat := fun heq => hc (causeCode_toNat_inj heq ▸ he)
  have := h e he
  omega

theorem not_meets_badCsr (h : i.opcode ≠ .sget) : ¬ Meets s i .badCsr := by
  rintro ⟨_, rfl, _⟩
  exact h rfl

theorem not_meets_unsupportedRadix (h : i.opcode ≠ .wrdx) : ¬ Meets s i .unsupportedRadix := by
  rintro ⟨_, _, _, _, rfl, _⟩
  exact h rfl

theorem not_meets_unwrittenReg (h : ∀ r ∈ sourcesOf i, s.reg r ≠ none) : ¬ Meets s i .unwrittenReg :=
  fun ⟨r, hr, hnone⟩ => h r hr hnone

theorem not_meets_zeroWidth {w : Nat} (h : createdWidth s i = some w)
    (hpos : i.opcode = .wset ∨ i.opcode = .wrdx → 1 ≤ w) : ¬ Meets s i .zeroWidth := by
  rintro ⟨hop, hzero⟩
  cases h.symm.trans hzero
  exact absurd (hpos hop) (by decide)

theorem not_meets_widthOverflow {w : Nat} (h : createdWidth s i = some w) (hfits : w ≤ s.params.widthMax) :
    ¬ Meets s i .widthOverflow := by
  rintro ⟨v, hv, hlt⟩
  cases h.symm.trans hv
  omega

theorem raises_badCsr {csr : BitVec 16} (h : 2 < csr.toNat) : Raises s (.sget csr) .badCsr :=
  ⟨⟨⟨csr, rfl, h⟩, noneBelow_badCsr⟩, nofun⟩

theorem raises_unsupportedRadix {rd : RegNo} {radix : BitVec 8} {n : BitVec 16} {ws : List Word}
    (h : radix.toNat ∉ [8, 10, 16, 64]) : Raises s (.wrdx rd radix n ws) .unsupportedRadix :=
  ⟨⟨⟨rd, radix, n, ws, rfl, h⟩, noneBelow_badCsr.next (not_meets_badCsr nofun) rfl⟩, nofun⟩

/-- `SGET` and `WRDX`, the commands of the lower-numbered causes, have no source register. -/
theorem raises_unwrittenReg {r : RegNo} (hr : r ∈ sourcesOf i) (hnone : s.reg r = none) :
    Raises s i .unwrittenReg := by
  have hsget : i.opcode ≠ .sget := by
    cases i with
    | sget => cases hr
    | _ => exact nofun
  have hwrdx : i.opcode ≠ .wrdx := by
    cases i with
    | wrdx => cases hr
    | _ => exact nofun
  have hbelow : NoneBelow s i .unwrittenReg :=
    (noneBelow_badCsr.next (not_meets_badCsr hsget) rfl).next (not_meets_unsupportedRadix hwrdx) rfl
  exact ⟨⟨⟨r, hr, hnone⟩, hbelow⟩, nofun⟩

theorem reg_ne_none_of_createdWidth {w : Nat} (h : createdWidth s i = some w) :
    ∀ r ∈ sourcesOf i, s.reg r ≠ none := by
  cases i with
  | wadd rd ra rb | wsub rd ra rb | wmul rd ra rb =>
    simp only [createdWidth, Option.bind_eq_some_iff, Option.map_eq_some_iff] at h
    obtain ⟨a, ha, b, hb, _⟩ := h
    simp [sourcesOf, ha, hb]
  | wset | wrdx => exact nofun
  | _ => cases h

/-- A command has a width to create only when its fields and its sources are in order. -/
theorem noneBelow_zeroWidth {w : Nat} (h : createdWidth s i = some w) : NoneBelow s i .zeroWidth := by
  have hcsr : ¬ Meets s i .badCsr := by
    rintro ⟨_, rfl, _⟩
    cases h
  have hradix : ¬ Meets s i .unsupportedRadix := by
    rintro ⟨_, _, _, _, rfl, hnot⟩
    exact hnot (radix_mem_of_est h)
  exact ((noneBelow_badCsr.next hcsr rfl).next hradix rfl).next
    (not_meets_unwrittenReg (reg_ne_none_of_createdWidth h)) rfl

theorem raises_zeroWidth (hop : i.opcode = .wset ∨ i.opcode = .wrdx) (h : createdWidth s i = some 0) :
    Raises s i .zeroWidth :=
  ⟨⟨⟨hop, h⟩, noneBelow_zeroWidth h⟩, nofun⟩

/-- A width above `WIDTH_MAX` is not 0. -/
theorem raises_widthOverflow {w : Nat} (h : createdWidth s i = some w) (hw : s.params.widthMax < w) :
    Raises s i .widthOverflow :=
  ⟨⟨⟨w, h, hw⟩, (noneBelow_zeroWidth h).next (not_meets_zeroWidth h fun _ => Nat.one_le_of_lt hw) rfl⟩, nofun⟩

theorem raises_badPayload (hbelow : NoneBelow s i .badPayload) (h : TakesBadPayload s i) : Raises s i .badPayload :=
  ⟨⟨meets_badPayload_of_takes h, hbelow⟩, fun _ => h⟩

/-- What is left to check of a command whose width is in order is its payload. -/
theorem noneBelow_badPayload_of_createdWidth {w : Nat} (h : createdWidth s i = some w)
    (hpos : i.opcode = .wset ∨ i.opcode = .wrdx → 1 ≤ w) (hfits : w ≤ s.params.widthMax) :
    NoneBelow s i .badPayload :=
  ((noneBelow_zeroWidth h).next (not_meets_zeroWidth h hpos) rfl).next (not_meets_widthOverflow h hfits) rfl

/-- What is left to check of a command that creates no width to check, once its sources are there, is its payload. -/
theorem noneBelow_badPayload_of_sources (hcsr : ¬ Meets s i .badCsr) (hwrdx : i.opcode ≠ .wrdx)
    (hwidth : createdWidth s i = none) (hsrc : ∀ r ∈ sourcesOf i, s.reg r ≠ none) : NoneBelow s i .badPayload := by
  have hzero : ¬ Meets s i .zeroWidth := fun ⟨_, h⟩ => nomatch hwidth.symm.trans h
  have hover : ¬ Meets s i .widthOverflow := fun ⟨_, h, _⟩ => nomatch hwidth.symm.trans h
  have hfields : NoneBelow s i .unwrittenReg :=
    (noneBelow_badCsr.next hcsr rfl).next (not_meets_unsupportedRadix hwrdx) rfl
  exact ((hfields.next (not_meets_unwrittenReg hsrc) rfl).next hzero rfl).next hover rfl

end

/-! ## Each check of a command raises its condition -/

/-- The answer rejects for the cause the command raises, or no cause is raised and the run state is kept. -/
def Verdict (s : State) (i : Instr) (r : Result) : Prop :=
  (∃ c, Raises s i c ∧ r = reject s c) ∨
  ((∀ c, ¬ Raises s i c) ∧ ∃ u : State, r = .next u ∧ u.rej = s.rej)

section
variable {s : State} {i : Instr}

theorem verdict_reject {c : Cause} (h : Raises s i c) : Verdict s i (reject s c) := .inl ⟨c, h, rfl⟩

theorem verdict_withSource {r : RegNo} {k : WideInt → Result} (hr : sourcesOf i = [r])
    (h : ∀ v, (∀ q ∈ sourcesOf i, s.reg q ≠ none) → Verdict s i (k v)) : Verdict s i (withSource s r k) := by
  obtain ⟨hnone, e⟩ | ⟨v, hv, e⟩ := withSource_cases s r k <;> rw [e]
  · exact verdict_reject (raises_unwrittenReg (by simp [hr]) hnone)
  · exact h v (by simp [hr, hv])

theorem verdict_withSources {ra rb : RegNo} {k : WideInt → WideInt → Result} (hr : sourcesOf i = [ra, rb])
    (h : ∀ a b, s.reg ra = some a → s.reg rb = some b → Verdict s i (k a b)) : Verdict s i (withSources s ra rb k) := by
  obtain ⟨hnone | hnone, e⟩ | ⟨a, b, ha, hb, e⟩ := withSources_cases s ra rb k <;> rw [e]
  · exact verdict_reject (raises_unwrittenReg (by simp [hr]) hnone)
  · exact verdict_reject (raises_unwrittenReg (by simp [hr]) hnone)
  · exact h a b ha hb

theorem verdict_checkNonzero {w : Nat} {k : Result} (hop : i.opcode = .wset ∨ i.opcode = .wrdx)
    (hw : createdWidth s i = some w) (h : 1 ≤ w → Verdict s i k) : Verdict s i (checkNonzero s w k) := by
  obtain ⟨rfl, e⟩ | ⟨hpos, e⟩ := checkNonzero_cases s w k <;> rw [e]
  · exact verdict_reject (raises_zeroWidth hop hw)
  · exact h hpos

theorem verdict_checkFits {w : Nat} {k : Result} (hw : createdWidth s i = some w)
    (h : w ≤ s.params.widthMax → Verdict s i k) : Verdict s i (checkFits s w k) := by
  obtain ⟨hgt, e⟩ | ⟨hle, e⟩ := checkFits_cases s w k <;> rw [e]
  · exact verdict_reject (raises_widthOverflow hw hgt)
  · exact h hle

/-- A payload that has not all arrived raises nothing: the block waits. -/
theorem verdict_withPayload {ok : Word → Bool} {k : List Word → Result} (hbelow : NoneBelow s i .badPayload)
    (hok : ∀ w, ok w = true ↔ w >>> dataBits s.params.L i = 0#32)
    (hk : ∀ us, ∃ u : State, k us = .next u ∧ u.rej = s.rej) :
    Verdict s i (withPayload s (payloadLength s.params.L i) ok (payloadOf i) k) := by
  obtain ⟨hlt, e⟩ | ⟨hle, ⟨w, hw, hbad⟩, e⟩ | ⟨_, hgood, e⟩ :=
    withPayload_cases s (payloadLength s.params.L i) ok (payloadOf i) k <;> rw [e]
  · exact .inr ⟨not_raises_of_noneBelow hbelow fun h => absurd h.1 (Nat.not_le.mpr hlt), s, rfl, rfl⟩
  · exact verdict_reject (raises_badPayload hbelow ⟨hle, w, hw, by simp [← hok, hbad]⟩)
  · refine .inr ⟨not_raises_of_noneBelow hbelow ?_, hk _⟩
    rintro ⟨_, w, hw, hbad⟩
    exact hbad ((hok w).mp (hgood w hw))

theorem verdict_next {u : State} (hpay : payloadOf i = []) (hbelow : NoneBelow s i .badPayload) (hu : u.rej = s.rej) :
    Verdict s i (.next u) :=
  .inr ⟨not_raises_of_noneBelow hbelow (by simp [TakesBadPayload, hpay]), u, rfl, hu⟩

end

/-! ## Each command raises the lowest-numbered condition it meets -/

theorem radix_not_mem_of_est_eq_none {radix n : Nat} (h : est radix n = none) : radix ∉ [8, 10, 16, 64] := by
  intro hr
  fin_cases hr <;> cases h

theorem two_lt_of_csr_eq_none {s : State} {n : Nat} (h : s.csr n = none) : 2 < n := by
  match n with
  | 0 | 1 | 2 => cases h
  | n + 3 => omega

section
variable (s : State)

theorem verdict_wset (rd : RegNo) (width : BitVec 16) (ws : List Word) :
    Verdict s (.wset rd width ws) (exec (.wset rd width ws) s) :=
  verdict_checkNonzero (.inl rfl) rfl fun hpos => verdict_checkFits rfl fun hfits =>
    verdict_withPayload (i := .wset rd width ws) (noneBelow_badPayload_of_createdWidth rfl (fun _ => hpos) hfits)
      (fun _ => beq_iff_eq) fun _ => ⟨_, rfl, rfl⟩

theorem verdict_wpro (rd : RegNo) (ws : List Word) : Verdict s (.wpro rd ws) (exec (.wpro rd ws) s) := by
  rw [exec, execWpro]
  exact verdict_withPayload (i := .wpro rd ws)
    (noneBelow_badPayload_of_sources (not_meets_badCsr nofun) nofun rfl nofun)
    (fun _ => beq_iff_eq) fun _ => ⟨_, rfl, rfl⟩

theorem verdict_wrdx (rd : RegNo) (radix : BitVec 8) (n : BitVec 16) (ws : List Word) :
    Verdict s (.wrdx rd radix n ws) (exec (.wrdx rd radix n ws) s) := by
  cases hw : est radix.toNat n.toNat with
  | none =>
    rw [exec, execWrdx, hw]
    exact verdict_reject (raises_unsupportedRadix (radix_not_mem_of_est_eq_none hw))
  | some w =>
    rw [exec_wrdx_of_est hw]
    exact verdict_checkNonzero (.inr rfl) hw fun hpos => verdict_checkFits hw fun hfits =>
      verdict_withPayload (i := .wrdx rd radix n ws) (noneBelow_badPayload_of_createdWidth hw (fun _ => hpos) hfits)
        (fun _ => beq_iff_eq) fun _ => ⟨_, rfl, rfl⟩

/-- The last check of the commands that store a value wider than their operands. -/
theorem verdict_checkFits_finishReg {i : Instr} {w n : Nat} {rd : RegNo} {v : WideInt} (hw : createdWidth s i = some w)
    (hpay : payloadOf i = []) (hset : i.opcode ≠ .wset) (hrdx : i.opcode ≠ .wrdx) :
    Verdict s i (checkFits s w (finishReg s rd v n)) :=
  verdict_checkFits hw fun hfits => verdict_next hpay
    (noneBelow_badPayload_of_createdWidth hw (fun h => absurd h (not_or.mpr ⟨hset, hrdx⟩)) hfits) rfl

/-- A command with neither a width nor a payload to check completes once its sources are there. -/
theorem verdict_next_of_sources {i : Instr} {u : State} (hpay : payloadOf i = []) (hsget : i.opcode ≠ .sget)
    (hwrdx : i.opcode ≠ .wrdx) (hwidth : createdWidth s i = none) (hsrc : ∀ r ∈ sourcesOf i, s.reg r ≠ none)
    (hu : u.rej = s.rej) : Verdict s i (.next u) :=
  verdict_next hpay (noneBelow_badPayload_of_sources (not_meets_badCsr hsget) hwrdx hwidth hsrc) hu

theorem verdict_wadd (rd ra rb : RegNo) : Verdict s (.wadd rd ra rb) (exec (.wadd rd ra rb) s) :=
  verdict_withSources rfl fun a b ha hb =>
    verdict_checkFits_finishReg s (by simp [createdWidth, ha, hb]) rfl nofun nofun

theorem verdict_waddt (rd ra rb : RegNo) : Verdict s (.waddt rd ra rb) (exec (.waddt rd ra rb) s) :=
  verdict_withSources rfl fun a b ha hb =>
    verdict_next_of_sources s rfl nofun nofun rfl (by simp [sourcesOf, ha, hb]) rfl

theorem verdict_wsub (rd ra rb : RegNo) : Verdict s (.wsub rd ra rb) (exec (.wsub rd ra rb) s) :=
  verdict_withSources rfl fun a b ha hb =>
    verdict_checkFits_finishReg s (by simp [createdWidth, ha, hb]) rfl nofun nofun

theorem verdict_wsubt (rd ra rb : RegNo) : Verdict s (.wsubt rd ra rb) (exec (.wsubt rd ra rb) s) :=
  verdict_withSources rfl fun a b ha hb =>
    verdict_next_of_sources s rfl nofun nofun rfl (by simp [sourcesOf, ha, hb]) rfl

theorem verdict_wmul (rd ra rb : RegNo) : Verdict s (.wmul rd ra rb) (exec (.wmul rd ra rb) s) :=
  verdict_withSources rfl fun a b ha hb =>
    verdict_checkFits_finishReg s (by simp [createdWidth, ha, hb]) rfl nofun nofun

theorem verdict_weq (ra rb : RegNo) : Verdict s (.weq ra rb) (exec (.weq ra rb) s) :=
  verdict_withSources rfl fun a b ha hb =>
    verdict_next_of_sources s rfl nofun nofun rfl (by simp [sourcesOf, ha, hb]) rfl

theorem verdict_weqs (ra : RegNo) (ws : List Word) : Verdict s (.weqs ra ws) (exec (.weqs ra ws) s) :=
  verdict_withSource rfl fun _ hsrc =>
    verdict_withPayload (i := .weqs ra ws)
      (noneBelow_badPayload_of_sources (not_meets_badCsr nofun) nofun rfl hsrc)
      (fun _ => beq_iff_eq) fun _ => ⟨_, rfl, rfl⟩

theorem verdict_whb (ra : RegNo) : Verdict s (.whb ra) (exec (.whb ra) s) :=
  verdict_withSource rfl fun _ hsrc => verdict_next_of_sources s rfl nofun nofun rfl hsrc rfl

theorem verdict_wget (ra : RegNo) : Verdict s (.wget ra) (exec (.wget ra) s) :=
  verdict_withSource rfl fun _ hsrc => verdict_next_of_sources s rfl nofun nofun rfl hsrc rfl

theorem verdict_sget (csr : BitVec 16) : Verdict s (.sget csr) (exec (.sget csr) s) := by
  cases hw : s.csr csr.toNat with
  | none =>
    have hlt := two_lt_of_csr_eq_none hw
    rw [exec_sget_of_two_lt s hlt]
    exact verdict_reject (raises_badCsr hlt)
  | some w =>
    have hcsr : ¬ Meets s (.sget csr) .badCsr := by
      rintro ⟨_, ⟨⟩, hlt⟩
      cases hw.symm.trans (csr_of_two_lt s hlt)
    rw [exec_sget_of_some hw]
    exact verdict_next rfl (noneBelow_badPayload_of_sources hcsr nofun rfl nofun) rfl

/-- The checks of every command come in the order of the causes, so the first that fails is the lowest-numbered condition
met. -/
theorem exec_verdict (i : Instr) : Verdict s i (exec i s) := by
  cases i with
  | wset rd width ws => exact verdict_wset s rd width ws
  | wpro rd ws => exact verdict_wpro s rd ws
  | wrdx rd radix n ws => exact verdict_wrdx s rd radix n ws
  | wadd rd ra rb => exact verdict_wadd s rd ra rb
  | waddt rd ra rb => exact verdict_waddt s rd ra rb
  | wsub rd ra rb => exact verdict_wsub s rd ra rb
  | wsubt rd ra rb => exact verdict_wsubt s rd ra rb
  | wmul rd ra rb => exact verdict_wmul s rd ra rb
  | weq ra rb => exact verdict_weq s ra rb
  | weqs ra ws => exact verdict_weqs s ra ws
  | whb ra => exact verdict_whb s ra
  | wget ra => exact verdict_wget s ra
  | sget csr => exact verdict_sget s csr

end

section
variable {s : State} {i : Instr} {c : Cause}

theorem rejectedWith_of_raises (h : Raises s i c) : RejectedWith s c (exec i s) := by
  obtain ⟨d, hd, e⟩ | ⟨hnone, _⟩ := exec_verdict s i
  · rw [e, lowestMet_unique h.1 hd.1]
    exact rejectedWith_reject s d
  · exact absurd h (hnone c)

theorem rejectedWith_exec_iff (hr : s.rej = false) : RejectedWith s c (exec i s) ↔ Raises s i c := by
  refine ⟨fun h => ?_, rejectedWith_of_raises⟩
  obtain ⟨d, hd, e⟩ | ⟨_, u, e, hu⟩ := exec_verdict s i <;> rw [e] at h
  · exact rejectedWith_reject_iff.mp h ▸ hd
  · exact absurd h (not_rejectedWith_next (hu.trans hr) c)

theorem not_rejectedWith_of_not_meets (hr : s.rej = false) (h : ¬ Meets s i c) : ¬ RejectedWith s c (exec i s) :=
  fun hrej => h ((rejectedWith_exec_iff hr).mp hrej).1.1

theorem exec_running_of_not_raises (hr : s.rej = false) (h : ∀ c, ¬ Raises s i c) :
    ∃ u : State, exec i s = .next u ∧ u.rej = false := by
  obtain ⟨d, hd, _⟩ | ⟨_, u, e, hu⟩ := exec_verdict s i
  · exact absurd hd (h d)
  · exact ⟨u, e, hu.trans hr⟩

end

/-! ## The order of the causes -/

/-- Settles O45: for a complete command, what it raises is the lowest-numbered condition it meets. -/
theorem lowestCauseIsRecorded : Obligations.LowestCauseIsRecorded := by
  intro s i hr hwf
  refine ⟨fun c hc => rejectedWith_of_raises ((raises_iff_of_wellFormed hwf).mpr hc), fun hnone => ?_⟩
  exact exec_running_of_not_raises hr fun c hc => hnone c hc.1.1

/-- A running block waits for the payload of a command that raises nothing. -/
theorem exec_eq_next_self {s : State} {i : Instr} (hr : s.rej = false) (h : ∀ c, ¬ Raises s i c)
    (hlen : (payloadOf i).length < payloadLength s.params.L i) : exec i s = .next s := by
  obtain ⟨u, hu, hrun⟩ := exec_running_of_not_raises hr h
  obtain ⟨e, _⟩ | ⟨c, e⟩ | ⟨_, _, _, hle⟩ := exec_goes i s
  · exact e
  · cases hu.symm.trans e
    cases hrun
  · exact absurd hle (Nat.not_le.mpr hlen)

/-- Settles O44: the only condition left is `BAD_PAYLOAD`, which is not raised before the payload is there. -/
theorem incompletePayloadWaits : Obligations.IncompletePayloadWaits := by
  intro s i hr hd hwf hnone
  have hlen : (payloadOf i).length < payloadLength s.params.L i := by
    by_contra hle
    rw [wellFormed_of_decode hd (Nat.not_lt.mp hle)] at hwf
    cases hwf
  have hraise : ∀ c, ¬ Raises s i c :=
    not_raises_of_noneBelow (noneBelow_badPayload_iff.mpr hnone) fun h => absurd h.1 (Nat.not_le.mpr hlen)
  have hcmd : s.cmd ≠ [] := by
    intro hnil
    rw [hnil] at hd
    cases hd
  have hstep : step s = .next s := by
    rw [step_of_decode_command hr rfl hd, exec_eq_next_self hr hraise hlen]
  exact ⟨hstep, ⟨hcmd, hr, hstep⟩, fun hend => hcmd hend.1, by simp [hr]⟩

/-! ## Whether a command is rejected depends on no magnitude -/

section
variable (L : Nat) (i : Instr)

@[simp] theorem withoutMagnitudes_opcode : (withoutMagnitudes L i).opcode = i.opcode := by cases i <;> rfl

@[simp] theorem withoutMagnitudes_sourcesOf : sourcesOf (withoutMagnitudes L i) = sourcesOf i := by cases i <;> rfl

@[simp] theorem withoutMagnitudes_createdWidth (s : State) :
    createdWidth s (withoutMagnitudes L i) = createdWidth s i := by cases i <;> rfl

@[simp] theorem withoutMagnitudes_payloadLength : payloadLength L (withoutMagnitudes L i) = payloadLength L i := by
  cases i <;> rfl

theorem withoutMagnitudes_payloadOf :
    payloadOf (withoutMagnitudes L i) = (payloadOf i).map fun w : Word => w >>> dataBits L i := by
  cases i <;> rfl

end

/-- The conditions before the payload check are the same with the magnitudes left out. -/
theorem meets_withoutMagnitudes {s : State} {i : Instr} {c : Cause} (hc : c ≠ .badPayload) (L : Nat) :
    Meets s (withoutMagnitudes L i) c ↔ Meets s i c := by
  cases c with
  | illegalOpcode | reservedNonzero => exact Iff.rfl
  | badCsr => cases i <;> simp [Meets, withoutMagnitudes]
  | unsupportedRadix => cases i <;> simp [Meets, withoutMagnitudes]
  | unwrittenReg | zeroWidth | widthOverflow => simp [Meets]
  | badPayload => exact absurd rfl hc

/-- The payload check reads only what is left when the magnitudes are left out. -/
theorem takesBadPayload_iff {s : State} {i j : Instr} (hj : withoutMagnitudes s.params.L i = j) :
    TakesBadPayload s i ↔
      payloadLength s.params.L j ≤ (payloadOf j).length ∧
      ∃ x ∈ (payloadOf j).take (payloadLength s.params.L j), x ≠ 0#32 := by
  subst hj
  simp [TakesBadPayload, withoutMagnitudes_payloadOf, ← List.map_take]

section
variable {s t : State}

theorem SameShape.reg_eq_none_iff (h : SameShape s t) (r : RegNo) : s.reg r = none ↔ t.reg r = none := by
  rw [← Option.map_eq_none_iff (f := WideInt.bw), h.2 r, Option.map_eq_none_iff]

/-- A width computed from the widths of two registers. -/
theorem SameShape.bind_bw_eq (h : SameShape s t) (f : Nat → Nat → Nat) (ra rb : RegNo) :
    ((s.reg ra).bind fun a => (s.reg rb).map fun b => f a.bw b.bw) =
      (t.reg ra).bind fun a => (t.reg rb).map fun b => f a.bw b.bw := by
  have hmap : ∀ o p : Option WideInt, (o.bind fun a => p.map fun b => f a.bw b.bw) =
      (o.map WideInt.bw).bind fun v => (p.map WideInt.bw).map (f v) := by
    intro o p
    cases o <;> cases p <;> rfl
  rw [hmap, hmap, h.2, h.2]

theorem SameShape.createdWidth_eq (h : SameShape s t) (i : Instr) : createdWidth s i = createdWidth t i := by
  cases i with
  | wadd rd ra rb | wsub rd ra rb => exact h.bind_bw_eq (fun v w => max v w + 1) ra rb
  | wmul rd ra rb => exact h.bind_bw_eq (· + ·) ra rb
  | _ => rfl

theorem SameShape.meets_iff (h : SameShape s t) (i : Instr) (c : Cause) : Meets s i c ↔ Meets t i c := by
  cases c with
  | illegalOpcode | reservedNonzero | badCsr | unsupportedRadix => exact Iff.rfl
  | unwrittenReg => simp only [Meets, h.reg_eq_none_iff]
  | zeroWidth => simp only [Meets, h.createdWidth_eq]
  | widthOverflow => simp only [Meets, h.createdWidth_eq, h.1]
  | badPayload => simp only [Meets, h.1]

variable {i j : Instr}

/-- Commands that differ in magnitudes only, on states of one shape, meet the same conditions before the payload
check. -/
theorem SameShape.meets_iff_of_withoutMagnitudes (h : SameShape s t)
    (hij : withoutMagnitudes s.params.L i = withoutMagnitudes s.params.L j) {c : Cause} (hc : c ≠ .badPayload) :
    Meets s i c ↔ Meets t j c := by
  rw [← meets_withoutMagnitudes hc s.params.L, hij, meets_withoutMagnitudes hc, h.meets_iff]

theorem SameShape.noneBelow_of_withoutMagnitudes (h : SameShape s t)
    (hij : withoutMagnitudes s.params.L i = withoutMagnitudes s.params.L j) {c : Cause} (hs : NoneBelow s i c) :
    NoneBelow t j c := by
  intro d hd
  by_cases hp : d = .badPayload
  · exact hp ▸ (causeCode_bounds c).2
  · exact hs d ((h.meets_iff_of_withoutMagnitudes hij hp).mpr hd)

theorem SameShape.takesBadPayload_of_withoutMagnitudes (h : SameShape s t)
    (hij : withoutMagnitudes s.params.L i = withoutMagnitudes s.params.L j) (hs : TakesBadPayload s i) :
    TakesBadPayload t j := by
  rw [takesBadPayload_iff hij] at hs
  rwa [takesBadPayload_iff rfl, ← h.1]

theorem SameShape.raises_of_withoutMagnitudes (h : SameShape s t)
    (hij : withoutMagnitudes s.params.L i = withoutMagnitudes s.params.L j) {c : Cause} (hs : Raises s i c) :
    Raises t j c := by
  obtain ⟨⟨hm, hbelow⟩, htakes⟩ := hs
  have htakes' : c = .badPayload → TakesBadPayload t j :=
    fun hc => h.takesBadPayload_of_withoutMagnitudes hij (htakes hc)
  refine ⟨⟨?_, h.noneBelow_of_withoutMagnitudes hij hbelow⟩, htakes'⟩
  by_cases hc : c = .badPayload
  · exact hc ▸ meets_badPayload_of_takes (htakes' hc)
  · exact (h.meets_iff_of_withoutMagnitudes hij hc).mp hm

theorem SameShape.symm (h : SameShape s t) : SameShape t s := ⟨h.1.symm, fun r => (h.2 r).symm⟩

end

/-- Settles O48: what a command raises is read from its command word, the shape of the state and the must-be-zero bits
of its payload. -/
theorem rejectIgnoresMagnitudes : Obligations.RejectIgnoresMagnitudes := by
  intro s t i j hs ht h hij c
  rw [rejectedWith_exec_iff hs, rejectedWith_exec_iff ht]
  have hji : withoutMagnitudes t.params.L j = withoutMagnitudes t.params.L i := by rw [← h.1, hij]
  exact ⟨h.raises_of_withoutMagnitudes hij, h.symm.raises_of_withoutMagnitudes hji⟩

/-! ## The single causes -/

/-- Settles O40: each of the nine commands names the empty register as a source. -/
theorem emptySourceIsRejected : Obligations.EmptySourceIsRejected := by
  intro s rd ra rb ws
  have hreject : ∀ i r, r ∈ sourcesOf i → s.reg r = none → RejectedWith s .unwrittenReg (exec i s) :=
    fun _ _ hr hnone => rejectedWith_of_raises (raises_unwrittenReg hr hnone)
  have htwo : ∀ i, sourcesOf i = [ra, rb] → s.reg ra = none ∨ s.reg rb = none →
      RejectedWith s .unwrittenReg (exec i s) := by
    rintro i hi (ha | hb)
    · exact hreject i ra (by simp [hi]) ha
    · exact hreject i rb (by simp [hi]) hb
  refine ⟨fun h => ⟨htwo _ rfl h, htwo _ rfl h, htwo _ rfl h, htwo _ rfl h, htwo _ rfl h, htwo _ rfl h⟩, fun ha => ?_⟩
  exact ⟨hreject _ ra (by simp [sourcesOf]) ha, hreject _ ra (by simp [sourcesOf]) ha,
    hreject _ ra (by simp [sourcesOf]) ha⟩

/-- The decimal estimate is never 0; the others are when there are no digits. -/
theorem est_eq_some_zero_iff {radix n : Nat} : est radix n = some 0 ↔ n = 0 ∧ radix ∈ [8, 16, 64] := by
  by_cases hr : radix ∈ [8, 10, 16, 64]
  · fin_cases hr <;> simp [est]
  · have hr' : radix ∉ [8, 16, 64] := fun h =>
      hr ((by decide : [8, 16, 64] ⊆ [8, 10, 16, 64]) h)
    simp [est_eq_none hr, hr']

/-- Settles O41: the width to create alone decides, and the three commands that never overflow create none to check. -/
theorem illegalWidthIsRejected : Obligations.IllegalWidthIsRejected := by
  intro s rd ra rb width radix n ws
  have hzero : ∀ i, i.opcode = .wset ∨ i.opcode = .wrdx → createdWidth s i = some 0 →
      RejectedWith s .zeroWidth (exec i s) := fun _ hop h => rejectedWith_of_raises (raises_zeroWidth hop h)
  have hover : ∀ i w, createdWidth s i = some w → s.params.widthMax < w →
      RejectedWith s .widthOverflow (exec i s) := fun _ _ h hw => rejectedWith_of_raises (raises_widthOverflow h hw)
  have hnever : ∀ i, createdWidth s i = none → s.rej = false → ¬ RejectedWith s .widthOverflow (exec i s) :=
    fun _ h hr => not_rejectedWith_of_not_meets hr fun ⟨_, hw, _⟩ => nomatch h.symm.trans hw
  refine ⟨fun h => hzero _ (.inl rfl) (congrArg some h), hover _ _ rfl, est_eq_some_zero_iff,
    hzero (.wrdx rd radix n ws) (.inr rfl), hover (.wrdx rd radix n ws),
    fun a b ha hb => ⟨fun hw => ⟨?_, ?_⟩, fun hw => ?_⟩,
    fun hr => ⟨hnever _ rfl hr, hnever _ rfl hr, hnever _ rfl hr⟩⟩
  · exact hover _ _ (by simp [createdWidth, ha, hb]) hw
  · exact hover _ _ (by simp [createdWidth, ha, hb]) hw
  · exact hover _ _ (by simp [createdWidth, ha, hb]) hw

/-- Settles O43: the field is the first thing checked. -/
theorem illegalFieldIsRejected : Obligations.IllegalFieldIsRejected :=
  fun _ _ _ _ _ _ => ⟨fun h => rejectedWith_of_raises (raises_badCsr h),
    fun h => rejectedWith_of_raises (raises_unsupportedRadix h)⟩

theorem shiftRight_eq_zero_iff {n : Nat} {w : Word} : w >>> n = 0#32 ↔ w.toNat < 2 ^ n :=
  beq_iff_eq.symm.trans limbWordOk_iff

/-- A word of the payload with a bit above its data bits is rejected once all of the payload is there (R269). -/
theorem rejectedWith_badPayload {s : State} {i : Instr} (hbelow : NoneBelow s i .badPayload)
    (hlen : (payloadOf i).length = payloadLength s.params.L i)
    (hbad : ∃ x ∈ payloadOf i, 2 ^ dataBits s.params.L i ≤ x.toNat) : RejectedWith s .badPayload (exec i s) := by
  obtain ⟨x, hx, hge⟩ := hbad
  have hmeets : Meets s i .badPayload := ⟨x, hx, mt shiftRight_eq_zero_iff.mp (Nat.not_lt.mpr hge)⟩
  have htakes : TakesBadPayload s i := takesBadPayload_of_wellFormed (wellFormed_iff.mpr hlen) hmeets
  exact rejectedWith_of_raises (raises_badPayload hbelow htakes)

/-- A payload of full words has no must-be-zero bit. -/
theorem not_meets_badPayload {s : State} {i : Instr} (h : dataBits s.params.L i = 32) : ¬ Meets s i .badPayload := by
  rintro ⟨w, _, hbad⟩
  rw [h] at hbad
  exact hbad (shiftRight_eq_zero_iff.mpr w.isLt)

/-- Settles O42: `BAD_PAYLOAD` is what is left once the other checks have passed, and a 32-bit limb fills its word. -/
theorem badPayloadIsRejected : Obligations.BadPayloadIsRejected := by
  intro s rd ra width radix n ws w
  refine ⟨fun hbad => ⟨fun hpos hfits hlen => ?_, fun hlen => ?_, fun hlen hra => ?_⟩,
    fun hbad hest hpos hfits hlen => ?_, fun hL hr => ?_⟩
  · exact rejectedWith_badPayload (noneBelow_badPayload_of_createdWidth rfl (fun _ => hpos) hfits) hlen hbad
  · exact rejectedWith_badPayload (noneBelow_badPayload_of_sources (not_meets_badCsr nofun) nofun rfl nofun) hlen hbad
  · exact rejectedWith_badPayload (noneBelow_badPayload_of_sources (not_meets_badCsr nofun) nofun rfl
      (List.forall_mem_singleton.mpr hra)) hlen hbad
  · exact rejectedWith_badPayload (noneBelow_badPayload_of_createdWidth hest (fun _ => hpos) hfits) hlen hbad
  · have h32 : s.params.L = 32 := congrArg LimbWidth.bits hL
    exact ⟨not_rejectedWith_of_not_meets hr (not_meets_badPayload h32),
      not_rejectedWith_of_not_meets hr (not_meets_badPayload h32),
      not_rejectedWith_of_not_meets hr (not_meets_badPayload h32)⟩

/-! ## The words that are no command -/

theorem opField_toNat (w : Word) : (opField w).toNat = w.toNat / 2 ^ 28 := by
  have := w.isLt
  rw [opField, BitVec.extractLsb'_toNat, Nat.shiftRight_eq_div_pow]
  omega

theorem opcodeOfNibble_eq_none {w : Word} (h : w.toNat / 2 ^ 28 = 0 ∨ w.toNat / 2 ^ 28 = 14 ∨ w.toNat / 2 ^ 28 = 15) :
    opcodeOfNibble (opField w) = none := by
  rw [← opField_toNat] at h
  obtain h | h | h := h <;> simp [opcodeOfNibble, h]

theorem opcodeOfNibble_matchOf (op : Opcode) : opcodeOfNibble (opField (matchOf op)) = some op := by
  cases op <;> rfl

/-- Settles O7: the opcode nibble selects the row or none, and the row's mask and match do the rest. -/
theorem everyWordIsRejectedOrExecuted : Obligations.EveryWordIsRejectedOrExecuted := by
  intro s w rest hr hc
  refine ⟨fun hop => ?_, fun row hrow hop hne => ?_, fun row hrow heq => ?_⟩
  · have hd : decode s.params.L (w :: rest) = .reject .illegalOpcode := by
      rw [decode, opcodeOfNibble_eq_none hop]
    rw [step_of_decode_reject hr hc hd]
    exact rejectedWith_reject s _
  · obtain ⟨hmatch, hmask⟩ := opcodeMap_row hrow
    rw [hmatch] at hop hne
    rw [hmask] at hne
    have hfield : opField w = opField (matchOf row.1) :=
      BitVec.eq_of_toNat_eq (by rw [opField_toNat, opField_toNat, hop])
    have hd : decode s.params.L (w :: rest) = .reject .reservedNonzero := by
      simp [decode, hfield, opcodeOfNibble_matchOf, hne]
    rw [step_of_decode_reject hr hc hd]
    exact rejectedWith_reject s _
  · obtain ⟨i, hi, hd⟩ := (opcodeMapIsMatchAndMask row hrow s.params.L w rest).mpr heq
    exact ⟨i, hi, by rw [hc, hd], step_of_decode_command hr hc hd⟩

/-! ## Every step, and the rejected state -/

theorem exec_answers (i : Instr) (s : State) : ∃ t : State, exec i s = .next t := by
  obtain ⟨e, _⟩ | ⟨c, e⟩ | ⟨u, _, e, _⟩ := exec_goes i s
  · exact ⟨_, e⟩
  · exact ⟨_, e⟩
  · exact ⟨_, e⟩

/-- Settles O54: waiting, rejecting and executing each answer a state. -/
theorem stepAlwaysAnswersAState : Obligations.StepAlwaysAnswersAState := by
  intro s
  obtain ⟨_, e⟩ | ⟨_, _, e⟩ | ⟨_, c, _, e⟩ | ⟨_, i, _, e⟩ := step_cases s <;> rw [e]
  · exact ⟨s, rfl⟩
  · exact ⟨s, rfl⟩
  · exact ⟨_, rfl⟩
  · exact exec_answers i s

theorem step_of_rejected {s : State} (h : s.rej = true) : step s = .next s := by
  rw [step, if_pos h]

/-- Settles O47, by induction on the number of steps. -/
theorem rejectedBlockNeverLeaves : Obligations.RejectedBlockNeverLeaves := by
  intro k s h
  induction k with
  | zero => exact run_zero s
  | succ k ih => rw [run_succ k (step_of_rejected h), ih]

theorem writes_rej {i : Instr} {s u : State} (h : Writes i s u) : u.rej = s.rej := by
  obtain ⟨_, _, _, rfl⟩ | ⟨_, _, rfl⟩ | ⟨_, _, _, _, rfl⟩ | ⟨_, _, rfl⟩ := h <;> rfl

/-- A step of a running block that ends rejected is a reject: a wait and a completed command leave the block running. -/
theorem eq_rejected_of_step {s t : State} (hr : s.rej = false) (h : step s = .next t) (ht : t.rej = true) :
    ∃ c, t = s.rejected c := by
  obtain rfl | hreject | ⟨i, _, hexec⟩ := step_next h
  · cases hr.symm.trans ht
  · exact hreject
  · obtain rfl | hreject | ⟨u, hu, rfl⟩ := exec_next hexec
    · cases hr.symm.trans ht
    · exact hreject
    · rw [consume_rej, writes_rej hu, hr] at ht
      cases ht

/-- Settles O46: the reject is the one update that sets `REJ`, and the codes are those of R261. -/
theorem rejectWritesOnlyRejAndCause : Obligations.RejectWritesOnlyRejAndCause := by
  intro s t hr h ht
  obtain ⟨c, rfl⟩ := eq_rejected_of_step hr h ht
  exact ⟨rfl, causeCode_bounds c⟩

end Sys2Proof.Machine

/-! SUPPORT. The family 70_reset_and_hazards: a step that changes the block rejects or takes a command's words from
`CMD` (`step_self_or_rejects_or_takes`), so a run comes to a state that repeats within as many steps as there are
words, and the states that repeat are the three ends of a run (`step_eq_self_iff`). -/

namespace Sys2Proof.Machine

/-! ## Steps that change nothing, and steps that do -/

/-- The states a step leaves as they are: the two ends of R300, and the block stuck inside a command (R275). -/
theorem step_eq_self_iff {s : State} : step s = .next s ↔ s.EndedWell ∨ s.EndedBadly ∨ s.Stuck := by
  constructor
  · intro hself
    cases hr : s.rej with
    | true => exact .inr (.inl hr)
    | false =>
      by_cases hc : s.cmd = []
      · exact .inl ⟨hc, hr⟩
      · exact .inr (.inr ⟨hc, hr, hself⟩)
  · rintro (⟨hc, hr⟩ | hr | ⟨_, _, hself⟩)
    · exact step_of_cmd_nil hr hc
    · exact step_of_rejected hr
    · exact hself

theorem length_lt_of_eq_encode_append {ws rest : List Word} {i : Instr} (h : ws = encode i ++ rest) :
    rest.length < ws.length := by
  simp only [h, encode, List.cons_append, List.length_cons, List.length_append]
  omega

/-- Every step changes nothing, rejects a word that is on `CMD`, or leaves fewer words on `CMD`. -/
theorem step_self_or_rejects_or_takes {s t : State} (h : step s = .next t) :
    step s = .next s ∨ (s.cmd ≠ [] ∧ t.rej = true) ∨ t.cmd.length < s.cmd.length := by
  by_cases hself : step s = .next s
  · exact .inl hself
  · have hrun : s.rej = false := Bool.eq_false_iff.mpr fun hr => hself (step_of_rejected hr)
    have hcmd : s.cmd ≠ [] := fun hc => hself (step_of_cmd_nil hrun hc)
    have hne : t ≠ s := fun e => hself (e ▸ h)
    cases ht : t.rej with
    | true => exact .inr (.inl ⟨hcmd, rfl⟩)
    | false =>
      obtain ⟨i, _, _, htakes⟩ := completedCommandTakesItsWords s t hrun h ht hne
      exact .inr (.inr (length_lt_of_eq_encode_append htakes))

/-! ## Runs -/

/-- A run goes on from the state its first `k` steps reach. -/
theorem run_add {k : Nat} {s t : State} (h : Sys2Proof.core.run k s = .next t) (m : Nat) :
    Sys2Proof.core.run (k + m) s = Sys2Proof.core.run m t := by
  induction k generalizing s with
  | zero =>
    cases (run_zero s).symm.trans h
    rw [Nat.zero_add]
  | succ k ih =>
    obtain ⟨u, hu⟩ := stepAlwaysAnswersAState s
    rw [run_succ k hu] at h
    rw [Nat.succ_add, run_succ _ hu, ih h]

theorem run_of_step_eq_self {s : State} (h : step s = .next s) (m : Nat) : Sys2Proof.core.run m s = .next s := by
  induction m with
  | zero => exact run_zero s
  | succ m ih => rw [run_succ m h, ih]

/-- The words on `CMD` bound the steps to a state that repeats: each step before it takes a word at least, and a
reject, which takes none, is the last one. -/
theorem run_reaches_step_eq_self (s : State) :
    ∃ (k : Nat) (t : State), k ≤ s.cmd.length ∧ Sys2Proof.core.run k s = .next t ∧ step t = .next t := by
  induction hn : s.cmd.length using Nat.strong_induction_on generalizing s with
  | _ n ih =>
    subst hn
    obtain ⟨u, hu⟩ := stepAlwaysAnswersAState s
    obtain hself | ⟨hcmd, hrej⟩ | hlt := step_self_or_rejects_or_takes hu
    · exact ⟨0, s, Nat.zero_le _, run_zero s, hself⟩
    · exact ⟨1, u, List.length_pos_of_ne_nil hcmd, run_succ 0 hu, step_of_rejected hrej⟩
    · obtain ⟨k, t, hk, hrun, ht⟩ := ih _ hlt u rfl
      exact ⟨k + 1, t, by omega, (run_succ k hu).trans hrun, ht⟩

/-- Settles O55: the run reaches a state that repeats in time, such a state is one of the three ends, and every longer
run repeats it. -/
theorem everyRunSettles : Obligations.EveryRunSettles := by
  intro s
  obtain ⟨k, t, hk, hrun, ht⟩ := run_reaches_step_eq_self s
  exact ⟨k, t, hk, hrun, step_eq_self_iff.mp ht, fun m => (run_add hrun m).trans (run_of_step_eq_self ht m)⟩

end Sys2Proof.Machine
